-- ==== Sys2Proof/Word.lean ====
section
/-! DEFINITION. The widths of the machine (spec/00_scope.md R6) and the names of its registers (spec/10_state.md R20). -/

namespace Sys2Proof

/-- A 16-bit word: a register, a memory cell, an instruction (R6). -/
abbrev Word := BitVec 16

/-- A 16-bit word address; every value is an address (spec/20_memory.md R50). -/
abbrev Addr := Word

/-- An 8-bit character of the keyboard (spec/10_state.md R36). -/
abbrev Byte := BitVec 8

/-- The eight general registers (R20). A 3-bit index always names one of them (spec/30_encoding.md R83). -/
inductive Reg where
  | r0 | r1 | r2 | r3 | r4 | r5 | r6 | r7
deriving DecidableEq, Repr

end Sys2Proof
end

