-- ==== Sys2Proof/Syntax.lean ====
section
/-! DEFINITION. The instruction set as syntax: one constructor per row of spec/opcode_table.json, its fields those of
spec/30_encoding.md R82. Bits the hardware ignores (R91) are no fields (log entry 17). -/

namespace Sys2Proof

/-- The nineteen instruction forms (spec/30_encoding.md R88). -/
inductive Instr where
  /-- BR, conditional branch (R130). -/
  | br (nzp : BitVec 3) (offset : BitVec 9)
  /-- ADD, register form (R110). -/
  | addReg (dr sr1 sr2 : Reg)
  /-- ADD, immediate form (R111). -/
  | addImm (dr sr1 : Reg) (imm : BitVec 5)
  /-- LD, load PC-relative (R120). -/
  | ld (dr : Reg) (offset : BitVec 9)
  /-- ST, store PC-relative (R124). -/
  | st (sr : Reg) (offset : BitVec 9)
  /-- JSR, jump to subroutine, PC-relative (R133). -/
  | jsr (offset : BitVec 11)
  /-- JSRR, jump to subroutine through a register (R134). -/
  | jsrr (base : Reg)
  /-- AND, register form (R112). -/
  | andReg (dr sr1 sr2 : Reg)
  /-- AND, immediate form (R113). -/
  | andImm (dr sr1 : Reg) (imm : BitVec 5)
  /-- LDR, load base + offset (R122). -/
  | ldr (dr base : Reg) (offset : BitVec 6)
  /-- STR, store base + offset (R126). -/
  | str (sr base : Reg) (offset : BitVec 6)
  /-- RTI, a defined no-op (R139). -/
  | rti
  /-- NOT, bitwise complement (R114). -/
  | not (dr sr : Reg)
  /-- LDI, load indirect (R121). -/
  | ldi (dr : Reg) (offset : BitVec 9)
  /-- STI, store indirect (R125). -/
  | sti (sr : Reg) (offset : BitVec 9)
  /-- JMP, jump through a register; RET is `jmp .r7` (R131). -/
  | jmp (base : Reg)
  /-- RESERVED, a defined no-op (R140). -/
  | reserved
  /-- LEA, load effective address (R123). -/
  | lea (dr : Reg) (offset : BitVec 9)
  /-- TRAP; the halt-trap is the one whose vector is `HALT_VECTOR` (R137). -/
  | trap (vector : BitVec 8)
deriving DecidableEq, Repr

end Sys2Proof
end

