-- ==== Sys2Proof/Config.lean ====
section
/-! DEFINITION. The machine's parameters (spec/00_scope.md R7) and the model's one free value: what the keyboard delivers. -/

namespace Sys2Proof

/-- The parameters of R7 that are constants of one machine. No rule depends on a default, so the record stands
in `State` and a statement about every state holds for every machine of the family (log entry 3). The launch
inputs of R7 (`GPR_RESET`, `COND_RESET`, `MEM_IMAGE`) are arguments of `State.launch`. -/
structure Config where
  /-- `PC_START` (D7). -/
  pcStart : Addr
  /-- `KBSR_ADDR` (D4). -/
  kbsrAddr : Addr
  /-- `KBDR_ADDR`, different from `KBSR_ADDR` (D4). -/
  kbdrAddr : Addr
  /-- `TRAP_TABLE_BASE` (D5). -/
  trapTableBase : Addr
  /-- `HALT_VECTOR` (D6). -/
  haltVector : BitVec 8
deriving DecidableEq, Repr

/-- FREE VALUE: the characters that arrive at the keyboard after the previous poll and before poll number `n`
(spec/10_state.md R37: "the environment may append a character to KBQ at any moment"; D13). It has no body,
so nothing can be proved of its values (log entry 8). -/
opaque Config.freeArrivals : Nat → List Byte

end Sys2Proof
end

