-- ==== Sys2Proof/WellFormed.lean ====
section
/-! DEFINITION. What must hold of a term before the machine may be asked about it. An instruction's fields have exactly the
widths of spec/30_encoding.md R82 and a 3-bit index always names a register (R83), so no instruction can be ill-formed
("there is no illegal instruction", R92). The one check there is concerns the parameters. -/

namespace Sys2Proof

/-- Every instruction is well-formed: the types of its fields leave nothing to check (R83, R84, R92). -/
def Instr.wellFormed : Instr → Bool
  | .br _ _ | .addReg _ _ _ | .addImm _ _ _ | .ld _ _ | .st _ _ | .jsr _ | .jsrr _ | .andReg _ _ _ | .andImm _ _ _
  | .ldr _ _ _ | .str _ _ _ | .rti | .not _ _ | .ldi _ _ | .sti _ _ | .jmp _ | .reserved | .lea _ _ | .trap _ => true

/-- The two keyboard cells have different addresses (spec/00_scope.md R7: `KBDR_ADDR` is a
"16-bit address, different from `KBSR_ADDR`"). -/
def Config.wf (c : Config) : Bool := c.kbsrAddr != c.kbdrAddr

end Sys2Proof
end

