-- ==== Sys2Proof/Decode.lean ====
section
/-! DEFINITION. Decoder and encoder, from spec/30_encoding.md R81 to R91. The opcode numbers (`Opcode.number`) and the field
positions (the `field…` functions and `encode`) stand here only; the spec takes both from general knowledge of the LC-3
(D1, D2; log entry 1). Decoding is total and rejects nothing (R90, R92): an instruction is one word (R80). -/

namespace Sys2Proof

/-- The closed enumeration of sixteen operations that R90 asks for, in the order of R89. -/
inductive Opcode where
  | br | add | ld | st | jsr | and | ldr | str | rti | not | ldi | sti | jmp | res | lea | trap
deriving DecidableEq, Repr

/-- The opcode map of R89. -/
def Opcode.number : Opcode → BitVec 4
  | .br => 0x0#4 | .add => 0x1#4 | .ld => 0x2#4 | .st => 0x3#4
  | .jsr => 0x4#4 | .and => 0x5#4 | .ldr => 0x6#4 | .str => 0x7#4
  | .rti => 0x8#4 | .not => 0x9#4 | .ldi => 0xA#4 | .sti => 0xB#4
  | .jmp => 0xC#4 | .res => 0xD#4 | .lea => 0xE#4 | .trap => 0xF#4

/-- The opcode map of R89 read the other way; all sixteen values are assigned (R81). -/
def Opcode.ofNumber (b : BitVec 4) : Opcode :=
  match b.toNat with
  | 0 => .br | 1 => .add | 2 => .ld | 3 => .st
  | 4 => .jsr | 5 => .and | 6 => .ldr | 7 => .str
  | 8 => .rti | 9 => .not | 10 => .ldi | 11 => .sti
  | 12 => .jmp | 13 => .res | 14 => .lea | _ => .trap

/-- A register's 3-bit index (R83). -/
def Reg.bits : Reg → BitVec 3
  | .r0 => 0#3 | .r1 => 1#3 | .r2 => 2#3 | .r3 => 3#3 | .r4 => 4#3 | .r5 => 5#3 | .r6 => 6#3 | .r7 => 7#3

/-- The register a 3-bit index names (R83). -/
def Reg.ofBits (b : BitVec 3) : Reg :=
  match b.toNat with
  | 0 => .r0 | 1 => .r1 | 2 => .r2 | 3 => .r3 | 4 => .r4 | 5 => .r5 | 6 => .r6 | _ => .r7

/-! Fields of the instruction word (R82). -/

/-- `ir[15:12]`. -/
def fieldOpcode (ir : Word) : Opcode := Opcode.ofNumber (ir.extractLsb' 12 4)
/-- `ir[11:9]` as a register: DR, and SR of the stores. -/
def fieldDR (ir : Word) : Reg := Reg.ofBits (ir.extractLsb' 9 3)
/-- `ir[8:6]` as a register: SR1, SR of NOT, BaseR. -/
def fieldSR1 (ir : Word) : Reg := Reg.ofBits (ir.extractLsb' 6 3)
/-- `ir[2:0]` as a register: SR2. -/
def fieldSR2 (ir : Word) : Reg := Reg.ofBits (ir.extractLsb' 0 3)
/-- `ir[11:9]` as the BR selector, n the most significant bit (R87). -/
def fieldNzp (ir : Word) : BitVec 3 := ir.extractLsb' 9 3
/-- The immediate-mode bit `I = ir[5]` (R86). -/
def fieldI (ir : Word) : Bool := ir.getLsbD 5
/-- The long-format bit `L = ir[11]` (R86). -/
def fieldL (ir : Word) : Bool := ir.getLsbD 11
/-- `ir[4:0]`. -/
def fieldImm5 (ir : Word) : BitVec 5 := ir.extractLsb' 0 5
/-- `ir[5:0]`. -/
def fieldOffset6 (ir : Word) : BitVec 6 := ir.extractLsb' 0 6
/-- `ir[8:0]`. -/
def fieldPCoffset9 (ir : Word) : BitVec 9 := ir.extractLsb' 0 9
/-- `ir[10:0]`. -/
def fieldPCoffset11 (ir : Word) : BitVec 11 := ir.extractLsb' 0 11
/-- `ir[7:0]`. -/
def fieldTrapvect8 (ir : Word) : BitVec 8 := ir.extractLsb' 0 8

/-- The decoder of R90: pure extraction, total on every word. -/
def decode (ir : Word) : Instr :=
  match fieldOpcode ir with
  | .br => .br (fieldNzp ir) (fieldPCoffset9 ir)
  | .add =>
    if fieldI ir then .addImm (fieldDR ir) (fieldSR1 ir) (fieldImm5 ir)
    else .addReg (fieldDR ir) (fieldSR1 ir) (fieldSR2 ir)
  | .ld => .ld (fieldDR ir) (fieldPCoffset9 ir)
  | .st => .st (fieldDR ir) (fieldPCoffset9 ir)
  | .jsr => if fieldL ir then .jsr (fieldPCoffset11 ir) else .jsrr (fieldSR1 ir)
  | .and =>
    if fieldI ir then .andImm (fieldDR ir) (fieldSR1 ir) (fieldImm5 ir)
    else .andReg (fieldDR ir) (fieldSR1 ir) (fieldSR2 ir)
  | .ldr => .ldr (fieldDR ir) (fieldSR1 ir) (fieldOffset6 ir)
  | .str => .str (fieldDR ir) (fieldSR1 ir) (fieldOffset6 ir)
  | .rti => .rti
  | .not => .not (fieldDR ir) (fieldSR1 ir)
  | .ldi => .ldi (fieldDR ir) (fieldPCoffset9 ir)
  | .sti => .sti (fieldDR ir) (fieldPCoffset9 ir)
  | .jmp => .jmp (fieldSR1 ir)
  | .res => .reserved
  | .lea => .lea (fieldDR ir) (fieldPCoffset9 ir)
  | .trap => .trap (fieldTrapvect8 ir)

/-- The field `v` at the bits from `lo` up: the layouts of R82 and R88 written from the other side. -/
def place {n : Nat} (lo : Nat) (v : BitVec n) : Word := v.setWidth 16 <<< lo

/-- The word of an instruction, laid out as R88 draws it. Ignored bits are written as assemblers write them:
ones in `ir[5:0]` of NOT, zeros elsewhere (R91; log entry 17). -/
def encode : Instr → Word
  | .br nzp off => place 12 Opcode.br.number ||| place 9 nzp ||| place 0 off
  | .addReg dr sr1 sr2 =>
    place 12 Opcode.add.number ||| place 9 dr.bits ||| place 6 sr1.bits ||| place 5 0#1 ||| place 3 0#2 ||| place 0 sr2.bits
  | .addImm dr sr1 imm => place 12 Opcode.add.number ||| place 9 dr.bits ||| place 6 sr1.bits ||| place 5 1#1 ||| place 0 imm
  | .ld dr off => place 12 Opcode.ld.number ||| place 9 dr.bits ||| place 0 off
  | .st sr off => place 12 Opcode.st.number ||| place 9 sr.bits ||| place 0 off
  | .jsr off => place 12 Opcode.jsr.number ||| place 11 1#1 ||| place 0 off
  | .jsrr base => place 12 Opcode.jsr.number ||| place 11 0#1 ||| place 9 0#2 ||| place 6 base.bits ||| place 0 0#6
  | .andReg dr sr1 sr2 =>
    place 12 Opcode.and.number ||| place 9 dr.bits ||| place 6 sr1.bits ||| place 5 0#1 ||| place 3 0#2 ||| place 0 sr2.bits
  | .andImm dr sr1 imm => place 12 Opcode.and.number ||| place 9 dr.bits ||| place 6 sr1.bits ||| place 5 1#1 ||| place 0 imm
  | .ldr dr base off => place 12 Opcode.ldr.number ||| place 9 dr.bits ||| place 6 base.bits ||| place 0 off
  | .str sr base off => place 12 Opcode.str.number ||| place 9 sr.bits ||| place 6 base.bits ||| place 0 off
  | .rti => place 12 Opcode.rti.number ||| place 0 0#12
  | .not dr sr => place 12 Opcode.not.number ||| place 9 dr.bits ||| place 6 sr.bits ||| place 0 0x3F#6
  | .ldi dr off => place 12 Opcode.ldi.number ||| place 9 dr.bits ||| place 0 off
  | .sti sr off => place 12 Opcode.sti.number ||| place 9 sr.bits ||| place 0 off
  | .jmp base => place 12 Opcode.jmp.number ||| place 9 0#3 ||| place 6 base.bits ||| place 0 0#6
  | .reserved => place 12 Opcode.res.number ||| place 0 0#12
  | .lea dr off => place 12 Opcode.lea.number ||| place 9 dr.bits ||| place 0 off
  | .trap vector => place 12 Opcode.trap.number ||| place 8 0#4 ||| place 0 vector

/-- The instruction word given by `nbits` bits numbered as spec/opcode_table.json numbers them, the bits above zero. -/
def tableWord (nbits w : Nat) : Word := BitVec.ofNat 16 (w % 2 ^ nbits)

/-- What the decoder reads from a table row's bits. Every instruction is one word, so a row of more than
sixteen bits is none (R80, R94; log entry 20). -/
def decodeTableWord (nbits w : Nat) : Option Instr :=
  if nbits ≤ 16 then some (decode (tableWord nbits w)) else none

end Sys2Proof
end

