-- ==== Sys2Proof/Machine/Bits.lean ====
section
/-! DEFINITION. The extensions of spec/00_scope.md section 5.3. -/

namespace Sys2Proof.Machine

/-- `sext_N` (R10): a two's-complement field widened to 16 bits. -/
def sext {n : Nat} (v : BitVec n) : Word := v.signExtend 16

/-- `zext_N` (R11): a field widened to 16 bits with zeros. -/
def zext {n : Nat} (v : BitVec n) : Word := v.setWidth 16

end Sys2Proof.Machine
end

