-- ==== Sys2Proof/Machine/Launch.lean ====
section
/-! DEFINITION. The values of the launch inputs and parameters that spec/00_scope.md R7 leaves open, as `State.reset` takes them,
each named in the assumption log. No meaning of an instruction uses a value of this file, except that a cell nobody
wrote reads as `memUnlisted`. -/

namespace Sys2Proof.Machine

/-- The defaults of R7: `PC_START` is the document's own figure (D7), the other four are PRESUMED by the spec from
the LC-3 (D4, D5, D6). Log entry 3. -/
def launchConfig : Config where
  pcStart := 0x3000#16
  kbsrAddr := 0xFE00#16
  kbdrAddr := 0xFE02#16
  trapTableBase := 0x0000#16
  haltVector := 0x25#8

/-- What R0 to R7 hold at reset: the spec gives nothing (R42). DESIGN CHOICE, unsafe: log entry 4. -/
def launchGpr : Word := 0x0000#16

/-- What COND holds at reset: the spec gives nothing (R43); this is the value its examples use.
PRESUMED, unsafe: log entry 5. -/
def launchCond : BitVec 3 := 0b010#3

/-- What a memory cell that is not listed reads as: `MEM_IMAGE` is open (R44); the spec's examples take every cell
they do not list as 0x0000. DESIGN CHOICE, unsafe: log entry 6. -/
def memUnlisted : Word := 0x0000#16

end Sys2Proof.Machine
end

