-- ==== Sys2Proof/Machine/State.lean ====
section
/-! DEFINITION. Everything the spec gives the machine (spec/10_state.md, the tuple at its head, and the keyboard queue of R37),
as plain data, and the state after reset (R40 to R46, spec/70_reset_and_hazards.md R180). -/

namespace Sys2Proof.Machine

/-- R0 to R7 (R20): one file, no banks, none hard-wired (R21). -/
structure RegFile where
  r0 : Word
  r1 : Word
  r2 : Word
  r3 : Word
  r4 : Word
  r5 : Word
  r6 : Word
  r7 : Word
deriving DecidableEq, Repr

/-- The execution state `RUN` (R31). -/
inductive RunState where
  | running
  | halted
deriving DecidableEq, Repr

/-- The memory array (R33): pairs of a cell address and the cell's 16-bit content, in the canonical form `Memory.wf`
(spec/20_memory.md R50: the addressable unit is the word, so the list pairs an address with a word; log entry 7). -/
abbrev Memory := List (Nat × Word)

/-- What the keyboard environment will deliver, the input `KB_INPUT` of spec/00_scope.md R7. The model's own field.
`free n`: before poll `n` the free value `Config.freeArrivals n` arrives (log entry 8). `script l`: the first list of
`l` arrives before the next poll, and so on, and nothing after the last (log entry 9). -/
inductive KbInput where
  | free (n : Nat)
  | script (arrivals : List (List Byte))
deriving DecidableEq, Repr

/-- The state of the machine. -/
structure State where
  /-- R0 to R7 (R20). -/
  regs : RegFile
  /-- The program counter (R24): between steps, the address of the next instruction. -/
  pc : Addr
  /-- The condition flags (R27): N `0b100`, Z `0b010`, P `0b001`. -/
  cond : BitVec 3
  /-- `RUN` (R31). -/
  run : RunState
  /-- `M[0x0000..0xFFFF]` (R33), the keyboard status and data cells (R34, R35) and the trap vector table included. -/
  mem : Memory
  /-- `KBQ` (R37): the characters that have arrived and were not taken, oldest first. -/
  kbq : List Byte
  /-- What will still arrive (`KB_INPUT`); the model's own field. -/
  kbInput : KbInput
  /-- The parameters of this machine (spec/00_scope.md R7); the model's own field, changed by no step. -/
  cfg : Config
deriving DecidableEq, Repr

/-- Why a step can stop. The hardware raises no exception (spec/60_exceptions.md R150), so the only stop is the end of
a run. -/
inductive Fault where
  /-- Raised by `step` and by nothing else, when `RUN` is HALTED: "no step exists" (R32), "HALTED is terminal — no
  further fetch occurs" (R31). Safe: the hardware does nothing there. Log entry 16. -/
  | halted
deriving DecidableEq, Repr

/-- Why an instruction can be refused. No arm of `exec` uses it: every instruction has its meaning. -/
inductive Refusal where
  /-- An arm of `exec` whose instruction has no meaning yet, by its mnemonic; raised by no arm now. Safe. -/
  | notModelled (mnemonic : String)
deriving DecidableEq, Repr

/-- The state before the first fetch (spec/70_reset_and_hazards.md R180), from the launch inputs of spec/00_scope.md R7:
PC at `PC_START` (R40), RUNNING (R41), registers, COND and memory as given (R42 to R45), the keyboard untouched (R46). -/
def State.launch (cfg : Config) (gpr : RegFile) (cond : BitVec 3) (image : Memory) (kbq : List Byte) (kbInput : KbInput) :
    State where
  regs := gpr
  pc := cfg.pcStart
  cond := cond
  run := .running
  mem := image
  kbq := kbq
  kbInput := kbInput
  cfg := cfg

/-- The machine right after reset: the default parameters (log entry 3), every register at the value log entries 4 and 5
name, memory with nothing listed (log entry 6), no character taken over and the keyboard free (log entry 8). -/
def State.reset : State :=
  State.launch launchConfig ⟨launchGpr, launchGpr, launchGpr, launchGpr, launchGpr, launchGpr, launchGpr, launchGpr⟩
    launchCond [] [] (.free 0)

end Sys2Proof.Machine
end

