-- ==== Sys2Proof/Machine/Ops.lean ====
section
/-! DEFINITION. The operations every instruction is built from: registers (spec/10_state.md R20), memory cells (R33), the
keyboard poll and the two bus primitives (spec/20_memory.md R52 to R56), the fetch (R32), trap entry and return
(spec/60_exceptions.md R153, R154), the reset input and the loader's part (R161). -/

namespace Sys2Proof.Machine

/-! ### One field at a time -/

def State.setRegs (v : RegFile) (s : State) : State := { s with regs := v }
/-- `PC <- v` (R24). -/
def State.setPC (v : Addr) (s : State) : State := { s with pc := v }
def State.setCond (v : BitVec 3) (s : State) : State := { s with cond := v }
def State.setRun (v : RunState) (s : State) : State := { s with run := v }
def State.setMem (v : Memory) (s : State) : State := { s with mem := v }
def State.setKbq (v : List Byte) (s : State) : State := { s with kbq := v }
def State.setKbInput (v : KbInput) (s : State) : State := { s with kbInput := v }

/-! ### General registers (R20: `get`, `set`; no register is special, R21) -/

def RegFile.get (f : RegFile) : Reg → Word
  | .r0 => f.r0 | .r1 => f.r1 | .r2 => f.r2 | .r3 => f.r3
  | .r4 => f.r4 | .r5 => f.r5 | .r6 => f.r6 | .r7 => f.r7

def RegFile.set (f : RegFile) (r : Reg) (v : Word) : RegFile :=
  match r with
  | .r0 => { f with r0 := v } | .r1 => { f with r1 := v } | .r2 => { f with r2 := v } | .r3 => { f with r3 := v }
  | .r4 => { f with r4 := v } | .r5 => { f with r5 := v } | .r6 => { f with r6 := v } | .r7 => { f with r7 := v }

/-- `R[r]`. -/
def State.readReg (s : State) (r : Reg) : Word := s.regs.get r

/-- `R[r] <- v`. -/
def State.writeReg (r : Reg) (v : Word) (s : State) : State := s.setRegs (s.regs.set r v)

/-! ### Memory cells: the stored content, with no side effect (R33) -/

/-- The content of the cell with key `k`. -/
def Memory.lookup : Memory → Nat → Word
  | [], _ => memUnlisted
  | (b, v) :: m, k => if b = k then v else Memory.lookup m k

/-- The list without its cells of key `k`. -/
def Memory.erase : Memory → Nat → Memory
  | [], _ => []
  | (b, v) :: m, k => if b = k then Memory.erase m k else (b, v) :: Memory.erase m k

/-- The list with the cell `(k, v)` put where its key belongs. -/
def Memory.insert : Memory → Nat → Word → Memory
  | [], k, v => [(k, v)]
  | (b, x) :: m, k, v => if b < k then (b, x) :: Memory.insert m k v else (k, v) :: (b, x) :: m

/-- Every cell of the list has a key from `lo` on, keys rise strictly and stay below 65,536, and no cell holds what an
unlisted cell reads as. -/
def Memory.risingFrom : Nat → Memory → Bool
  | _, [] => true
  | lo, (b, v) :: m => decide (lo ≤ b) && decide (b < 65536) && (v != memUnlisted) && Memory.risingFrom (b + 1) m

/-- The canonical form: equal memories are equal lists (log entry 7). -/
def Memory.wf (m : Memory) : Bool := Memory.risingFrom 0 m

/-- `M[a]`. -/
def Memory.read (m : Memory) (a : Addr) : Word := Memory.lookup m a.toNat

/-- `M[a] <- v`, keeping the canonical form. -/
def Memory.write (m : Memory) (a : Addr) (v : Word) : Memory :=
  if v = memUnlisted then Memory.erase m a.toNat else Memory.insert (Memory.erase m a.toNat) a.toNat v

/-- `M[a]` of a state. -/
def State.cell (s : State) (a : Addr) : Word := s.mem.read a

/-- `M[a] <- v` in a state. -/
def State.setCell (a : Addr) (v : Word) (s : State) : State := s.setMem (s.mem.write a v)

/-! ### The keyboard (R36, R37, spec/20_memory.md R53) -/

/-- What arrives before the next poll, and what is left to arrive (log entries 8 and 9). -/
def KbInput.next : KbInput → List Byte × KbInput
  | .free n => (Config.freeArrivals n, .free (n + 1))
  | .script [] => ([], .script [])
  | .script (now :: later) => (now, .script later)

/-- The environment appends to `KBQ` what arrived since the previous poll (R37). -/
def kbArrive (s : State) : State := (s.setKbq (s.kbq ++ s.kbInput.next.1)).setKbInput s.kbInput.next.2

/-- `kb_available()` (R36, R37); the signal `kb_avail` of spec/60_exceptions.md R160. -/
def kbAvailable (s : State) : Bool := !s.kbq.isEmpty

/-- `kb_take()` (R36, R37): the next available character, removed; none when there is none. -/
def kbTake (s : State) : Option (Byte × State) :=
  match s.kbq with
  | [] => none
  | c :: rest => some (c, s.setKbq rest)

/-- `poll_keyboard()` (spec/20_memory.md R53), after the arrivals. When a character is available the status cell becomes
exactly 0x8000 and the data cell the zero-extended character (D10, D11; log entries 10 and 11); otherwise the
status cell is cleared and the data cell left alone. -/
def pollKeyboard (s : State) : State :=
  match kbTake (kbArrive s) with
  | some (c, s') => (s'.setCell s'.cfg.kbsrAddr 0x8000#16).setCell s'.cfg.kbdrAddr (zext c)
  | none => (kbArrive s).setCell s.cfg.kbsrAddr 0x0000#16

/-! ### The bus (spec/20_memory.md R52, R55) -/

/-- The state after a bus read of `a`: a read of `KBSR_ADDR` polls the keyboard, any other changes nothing (R52, R56). -/
def readEffect (a : Addr) (s : State) : State := if a = s.cfg.kbsrAddr then pollKeyboard s else s

/-- `MemRead(a)` (R52): the poll first, then the cell's content (D12). -/
def memRead (a : Addr) (s : State) : Word × State := ((readEffect a s).cell a, readEffect a s)

/-- `MemWrite(a, v)` (R55): a plain write at every address. -/
def memWrite (a : Addr) (v : Word) (s : State) : State := s.setCell a v

/-- The fetch of R32: a bus read at PC, then the increment (R25, R26). The instruction word and the state its body sees. -/
def fetch (s : State) : Word × State := ((memRead s.pc s).1, (memRead s.pc s).2.setPC (s.pc + 1#16))

/-! ### Calls, traps and the end of a run -/

/-- `R[7] <- PC`: the link write of JSR, JSRR and TRAP, no flags (spec/10_state.md R22, R29). -/
def linkReturn (s : State) : State := s.writeReg .r7 s.pc

/-- The address of a trap vector table entry (spec/42_control.md R136; the vector is zero-extended, D5, log entry 15). -/
def trapSlot (vector : BitVec 8) (s : State) : Addr := s.cfg.trapTableBase + zext vector

/-- Trap entry (spec/60_exceptions.md R153, spec/42_control.md R137): the incremented PC is saved in R7 and nothing else is
saved; the halt vector stops the machine without reading the table (D6, log entry 14), every other vector jumps to
the address its table entry holds. No flag and no mode changes. -/
def trapEnter (vector : BitVec 8) (s : State) : State :=
  if vector = s.cfg.haltVector then (linkReturn s).setRun .halted
  else (memRead (trapSlot vector s) (linkReturn s)).2.setPC (memRead (trapSlot vector s) (linkReturn s)).1

/-- `PC <- R[base]`: the jump of JMP and, with R7, the return from a subroutine or trap service, which restores
nothing (spec/60_exceptions.md R154). -/
def jumpReg (base : Reg) (s : State) : State := s.setPC (s.readReg base)

/-! ### The block's interfaces (spec/60_exceptions.md R161) -/

/-- The status output `running`. -/
def State.runningOut (s : State) : Bool := decide (s.run = .running)

/-- The reset input (R161, spec/70_reset_and_hazards.md R180): a fresh launch state with its own registers, COND and image;
the parameters are the machine's and the keyboard is untouched (R46). No step of the core; log entry 21. -/
def State.resetInput (gpr : RegFile) (cond : BitVec 3) (image : Memory) (s : State) : State :=
  State.launch s.cfg gpr cond image s.kbq s.kbInput

/-- The loader's effect (spec/70_reset_and_hazards.md R181): words placed at consecutive addresses. The spec does not say what
an image running past 0xFFFF or over the keyboard cells does (91_not_in_source.md N16): here it goes on at 0x0000, a later
word over an earlier, and fills those cells as any others. DESIGN CHOICE, unsafe: log entry 24. -/
def Memory.loadWords : Addr → List Word → Memory → Memory
  | _, [], m => m
  | a, w :: ws, m => Memory.loadWords (a + 1#16) ws (m.write a w)

/-- Where an instruction must stand so that the next fetch yields it: at PC, but at the following cell when PC is
`KBSR_ADDR`, whose fetch never yields the stored word (spec/20_memory.md R56; log entry 20). -/
def fetchSlot (s : State) : Addr := if s.pc = s.cfg.kbsrAddr then s.pc + 1#16 else s.pc

/-- `s` running, about to fetch the word `w`. -/
def placeFetchWord (w : Word) (s : State) : State :=
  ((s.setCell (fetchSlot s) w).setPC (fetchSlot s)).setRun .running

end Sys2Proof.Machine
end

