-- ==== Sys2Proof/Machine/Flags.lean ====
section
/-! DEFINITION. The condition flags (spec/00_scope.md R13, spec/10_state.md R27 to R30). -/

namespace Sys2Proof.Machine

/-- The encodings of the three flags (R27, D3; log entry 2). -/
def condN : BitVec 3 := 0b100#3
def condZ : BitVec 3 := 0b010#3
def condP : BitVec 3 := 0b001#3

/-- The flag a value gives (R13). -/
def condOf (v : Word) : BitVec 3 :=
  if v = 0x0000#16 then condZ else if v.getLsbD 15 then condN else condP

/-- `setcc(v)` (R13). -/
def setcc (v : Word) (s : State) : State := s.setCond (condOf v)

/-- `R[dr] <- v; setcc(v)`: how every instruction that defines a destination register ends (R29). -/
def writeResult (dr : Reg) (v : Word) (s : State) : State := setcc v (s.writeReg dr v)

/-- BR's test `(nzp & COND) != 0` (spec/30_encoding.md R87). -/
def branchTaken (nzp : BitVec 3) (s : State) : Bool := (nzp &&& s.cond) != 0#3

end Sys2Proof.Machine
end

