-- ==== Sys2Proof/Machine/Operands.lean ====
section
/-! DEFINITION. The operand forms of spec/30_encoding.md R82 to R84 and the address modes of spec/41_data_movement.md R119.
`s.pc` is the already-incremented PC (spec/10_state.md R25); all sums wrap modulo 65,536 (spec/20_memory.md R51). -/

namespace Sys2Proof.Machine

/-- The immediate operand of ADD and AND: `sext_5(imm5)`. -/
def immOperand (imm : BitVec 5) : Word := sext imm

/-- PC-relative: `PC + sext_9(PCoffset9)`; LD, ST, LEA, BR, and the pointer of LDI and STI. -/
def pcRel9 (offset : BitVec 9) (s : State) : Addr := s.pc + sext offset

/-- PC-relative, JSR: `PC + sext_11(PCoffset11)`. -/
def pcRel11 (offset : BitVec 11) (s : State) : Addr := s.pc + sext offset

/-- Base + offset: `R[BaseR] + sext_6(offset6)`; LDR and STR. -/
def baseRel6 (base : Reg) (offset : BitVec 6) (s : State) : Addr := s.readReg base + sext offset

/-- The pointer read of LDI and STI: a bus read of the PC-relative address (R119, indirect). -/
def readPointer (offset : BitVec 9) (s : State) : Addr × State := memRead (pcRel9 offset s) s

end Sys2Proof.Machine
end

