-- ==== Sys2Proof/Machine/Control.lean ====
section
/-! DEFINITION. BR, JMP, JSR, JSRR, TRAP, RTI, RESERVED (spec/42_control.md). None of them touches COND (spec/10_state.md R29). -/

namespace Sys2Proof.Machine

/-- BR (R130). -/
def execBr (nzp : BitVec 3) (offset : BitVec 9) (s : State) : Host.Outcome State Fault Refusal :=
  if branchTaken nzp s then .next (s.setPC (pcRel9 offset s)) else .next s

/-- JMP, and RET when the base is R7 (R131). -/
def execJmp (base : Reg) (s : State) : Host.Outcome State Fault Refusal :=
  .next (jumpReg base s)

/-- JSR (R133). -/
def execJsr (offset : BitVec 11) (s : State) : Host.Outcome State Fault Refusal :=
  .next ((linkReturn s).setPC (pcRel11 offset s))

/-- JSRR (R134): the link is written first and the base register read after it, so `JSRR R7` falls through
(D14, log entry 13). -/
def execJsrr (base : Reg) (s : State) : Host.Outcome State Fault Refusal :=
  .next (jumpReg base (linkReturn s))

/-- TRAP (R137). -/
def execTrap (vector : BitVec 8) (s : State) : Host.Outcome State Fault Refusal :=
  .next (trapEnter vector s)

/-- RTI (R139): a defined no-op. -/
def execRti (s : State) : Host.Outcome State Fault Refusal := .next s

/-- RESERVED (R140): a defined no-op. -/
def execReserved (s : State) : Host.Outcome State Fault Refusal := .next s

end Sys2Proof.Machine
end

