-- ==== Sys2Proof/Machine/DataMovement.lean ====
section
/-! DEFINITION. LD, LDI, LDR, LEA, ST, STI, STR (spec/41_data_movement.md), with the bus accesses of spec/20_memory.md R57 in
their order. -/

namespace Sys2Proof.Machine

/-- LD (R120). -/
def execLd (dr : Reg) (offset : BitVec 9) (s : State) : Host.Outcome State Fault Refusal :=
  let r := memRead (pcRel9 offset s) s
  .next (writeResult dr r.1 r.2)

/-- LDI (R121): the pointer, then the data, both through the bus; flags from the data. -/
def execLdi (dr : Reg) (offset : BitVec 9) (s : State) : Host.Outcome State Fault Refusal :=
  let p := readPointer offset s
  let r := memRead p.1 p.2
  .next (writeResult dr r.1 r.2)

/-- LDR (R122): the base is read before the destination is written. -/
def execLdr (dr base : Reg) (offset : BitVec 6) (s : State) : Host.Outcome State Fault Refusal :=
  let r := memRead (baseRel6 base offset s) s
  .next (writeResult dr r.1 r.2)

/-- LEA (R123): the address itself, no bus access; flags from the address (90_conflicts.md C1, log entry 19). -/
def execLea (dr : Reg) (offset : BitVec 9) (s : State) : Host.Outcome State Fault Refusal :=
  .next (writeResult dr (pcRel9 offset s) s)

/-- ST (R124). -/
def execSt (sr : Reg) (offset : BitVec 9) (s : State) : Host.Outcome State Fault Refusal :=
  .next (memWrite (pcRel9 offset s) (s.readReg sr) s)

/-- STI (R125): the pointer read comes before the write. -/
def execSti (sr : Reg) (offset : BitVec 9) (s : State) : Host.Outcome State Fault Refusal :=
  let p := readPointer offset s
  .next (memWrite p.1 (p.2.readReg sr) p.2)

/-- STR (R126). -/
def execStr (sr base : Reg) (offset : BitVec 6) (s : State) : Host.Outcome State Fault Refusal :=
  .next (memWrite (baseRel6 base offset s) (s.readReg sr) s)

end Sys2Proof.Machine
end

