-- ==== Sys2Proof/Machine/Operate.lean ====
section
/-! DEFINITION. ADD, AND, NOT (spec/40_operate.md). Sources are read before the destination is written; PC and memory
play no part; no exception (spec/60_exceptions.md R150). -/

namespace Sys2Proof.Machine

/-- ADD, register form (R110). -/
def execAddReg (dr sr1 sr2 : Reg) (s : State) : Host.Outcome State Fault Refusal :=
  .next (writeResult dr (s.readReg sr1 + s.readReg sr2) s)

/-- ADD, immediate form (R111). -/
def execAddImm (dr sr1 : Reg) (imm : BitVec 5) (s : State) : Host.Outcome State Fault Refusal :=
  .next (writeResult dr (s.readReg sr1 + immOperand imm) s)

/-- AND, register form (R112). -/
def execAndReg (dr sr1 sr2 : Reg) (s : State) : Host.Outcome State Fault Refusal :=
  .next (writeResult dr (s.readReg sr1 &&& s.readReg sr2) s)

/-- AND, immediate form (R113): the immediate is sign-extended first. -/
def execAndImm (dr sr1 : Reg) (imm : BitVec 5) (s : State) : Host.Outcome State Fault Refusal :=
  .next (writeResult dr (s.readReg sr1 &&& immOperand imm) s)

/-- NOT (R114). -/
def execNot (dr sr : Reg) (s : State) : Host.Outcome State Fault Refusal :=
  .next (writeResult dr (~~~ s.readReg sr) s)

end Sys2Proof.Machine
end

