-- ==== Sys2Proof/Machine/Step.lean ====
section
/-! DEFINITION. One step of the core (spec/10_state.md R32), and how the host places one instruction. -/

namespace Sys2Proof.Machine

/-- R32: when HALTED no step exists; otherwise fetch (keyboard interception included), increment, decode, execute. -/
def step (s : State) : Host.Outcome State Fault Refusal :=
  match s.run with
  | .halted => .fault .halted
  | .running => exec (decode (fetch s).1) (fetch s).2

/-- `s` with the instruction of `nbits` bits `w` stored where `step` fetches next, and running. It stands for the
loader (spec/70_reset_and_hazards.md R181); log entry 20. -/
def State.withFetchWord (s : State) (nbits w : Nat) : State := placeFetchWord (tableWord nbits w) s

end Sys2Proof.Machine
end

