-- ==== Sys2Proof/Safety.lean ====
section
/-! DEFINITION. The terms in which claims about the machine are stated: what a step keeps, which registers, flags, cells and
bus addresses an instruction touches (the tables of spec/10_state.md R23, R29 and spec/20_memory.md R57), runs, and what
a good state is. Nothing here is part of the machine. -/

namespace Sys2Proof.Machine

/-! ### What stays the same from `s` to `t` -/

/-- Every register outside `written` keeps its value. -/
def KeepsRegs (written : List Reg) (s t : State) : Prop := ∀ r, r ∉ written → t.readReg r = s.readReg r

/-- Every memory cell outside `written` keeps its content. -/
def KeepsCells (written : List Addr) (s t : State) : Prop := ∀ a, a ∉ written → t.cell a = s.cell a

/-- No character arrived at the core, and none was taken. -/
def KeepsKeyboard (s t : State) : Prop := t.kbq = s.kbq ∧ t.kbInput = s.kbInput

/-- Memory and keyboard of `t` are those of `u`, whatever the registers hold. -/
def SameMemoryAndKeyboard (u t : State) : Prop := KeepsCells [] u t ∧ KeepsKeyboard u t

/-! ### Flags -/

/-- `c` is the flag of the value `v`, by the three sentences of spec/00_scope.md R13 and no others. -/
def FlagsDescribe (v : Word) (c : BitVec 3) : Prop :=
  (c = condZ ↔ v.toNat = 0) ∧ (c = condN ↔ v.toInt < 0) ∧ (c = condP ↔ 0 < v.toInt)

/-- Exactly one of the three flags is set (spec/10_state.md R28). -/
def CondOneHot (c : BitVec 3) : Prop := c = 0b100#3 ∨ c = 0b010#3 ∨ c = 0b001#3

/-- The destination register of an instruction that updates the flags (R29): ADD, AND, NOT, LD, LDI, LDR, LEA. -/
def flagDest : Instr → Option Reg
  | .addReg dr _ _ | .addImm dr _ _ | .andReg dr _ _ | .andImm dr _ _ | .not dr _
  | .ld dr _ | .ldi dr _ | .ldr dr _ _ | .lea dr _ => some dr
  | .st _ _ | .sti _ _ | .str _ _ _ | .br _ _ | .jmp _ | .jsr _ | .jsrr _ | .trap _ | .rti | .reserved => none

/-! ### Registers (the table of spec/10_state.md R23) -/

/-- The registers an instruction writes. -/
def regWrites : Instr → List Reg
  | .addReg dr _ _ | .addImm dr _ _ | .andReg dr _ _ | .andImm dr _ _ | .not dr _
  | .ld dr _ | .ldi dr _ | .ldr dr _ _ | .lea dr _ => [dr]
  | .jsr _ | .jsrr _ | .trap _ => [.r7]
  | .st _ _ | .sti _ _ | .str _ _ _ | .br _ _ | .jmp _ | .rti | .reserved => []

/-- The registers an instruction reads. -/
def regReads : Instr → List Reg
  | .addReg _ a b | .andReg _ a b => [a, b]
  | .addImm _ a _ | .andImm _ a _ | .not _ a | .st a _ | .sti a _ | .ldr _ a _ | .jmp a | .jsrr a => [a]
  | .str a b _ => [a, b]
  | .ld _ _ | .ldi _ _ | .lea _ _ | .br _ _ | .jsr _ | .trap _ | .rti | .reserved => []

/-- The instructions whose body may write PC (R24). -/
def writesPC : Instr → Bool
  | .br _ _ | .jmp _ | .jsr _ | .jsrr _ | .trap _ => true
  | .addReg _ _ _ | .addImm _ _ _ | .andReg _ _ _ | .andImm _ _ _ | .not _ _ | .ld _ _ | .ldi _ _ | .ldr _ _ _
  | .lea _ _ | .st _ _ | .sti _ _ | .str _ _ _ | .rti | .reserved => false

/-- The instructions whose body reads PC (R24): PC-relative addresses and link writes. -/
def readsPC : Instr → Bool
  | .ld _ _ | .ldi _ _ | .lea _ _ | .st _ _ | .sti _ _ | .br _ _ | .jsr _ | .jsrr _ | .trap _ => true
  | .addReg _ _ _ | .addImm _ _ _ | .andReg _ _ _ | .andImm _ _ _ | .not _ _ | .ldr _ _ _ | .str _ _ _ | .jmp _
  | .rti | .reserved => false

/-! ### Bus accesses after the fetch (the table of spec/20_memory.md R57), on the state the body sees -/

/-- The addresses the body reads, in order. -/
def busReads (i : Instr) (s : State) : List Addr :=
  match i with
  | .ld _ off => [pcRel9 off s]
  | .ldr _ base off => [baseRel6 base off s]
  | .ldi _ off => [pcRel9 off s, (readPointer off s).1]
  | .sti _ off => [pcRel9 off s]
  | .trap vector => if vector = s.cfg.haltVector then [] else [trapSlot vector s]
  | .addReg _ _ _ | .addImm _ _ _ | .andReg _ _ _ | .andImm _ _ _ | .not _ _ | .lea _ _ | .br _ _ | .jmp _ | .jsr _
  | .jsrr _ | .rti | .reserved | .st _ _ | .str _ _ _ => []

/-- The address the body writes, and the word, if it writes one. -/
def busWrite (i : Instr) (s : State) : Option (Addr × Word) :=
  match i with
  | .st sr off => some (pcRel9 off s, s.readReg sr)
  | .str sr base off => some (baseRel6 base off s, s.readReg sr)
  | .sti sr off => some ((readPointer off s).1, s.readReg sr)
  | .addReg _ _ _ | .addImm _ _ _ | .andReg _ _ _ | .andImm _ _ _ | .not _ _ | .lea _ _ | .br _ _ | .jmp _ | .jsr _
  | .jsrr _ | .rti | .reserved | .ld _ _ | .ldi _ _ | .ldr _ _ _ | .trap _ => none

/-- The destination register and the data address of a load. -/
def loadOf (i : Instr) (s : State) : Option (Reg × Addr) :=
  match i with
  | .ld dr off => some (dr, pcRel9 off s)
  | .ldr dr base off => some (dr, baseRel6 base off s)
  | .ldi dr off => some (dr, (readPointer off s).1)
  | .addReg _ _ _ | .addImm _ _ _ | .andReg _ _ _ | .andImm _ _ _ | .not _ _ | .lea _ _ | .br _ _ | .jmp _ | .jsr _
  | .jsrr _ | .rti | .reserved | .st _ _ | .sti _ _ | .str _ _ _ | .trap _ => none

/-! ### Encodings (the "match" and "mask" of spec/opcode_table.json, the `x` bits of spec/30_encoding.md R88, R91) -/

/-- The fixed bits of an instruction's row. -/
def rowMask : Instr → Word
  | .addReg _ _ _ | .addImm _ _ _ | .andReg _ _ _ | .andImm _ _ _ => 0xF020#16
  | .jsr _ | .jsrr _ => 0xF800#16
  | .br _ _ | .ld _ _ | .st _ _ | .ldr _ _ _ | .str _ _ _ | .rti | .not _ _ | .ldi _ _ | .sti _ _ | .jmp _ | .reserved
  | .lea _ _ | .trap _ => 0xF000#16

/-- Their values. -/
def rowMatch : Instr → Word
  | .br _ _ => 0x0000#16 | .addReg _ _ _ => 0x1000#16 | .addImm _ _ _ => 0x1020#16 | .ld _ _ => 0x2000#16
  | .st _ _ => 0x3000#16 | .jsr _ => 0x4800#16 | .jsrr _ => 0x4000#16 | .andReg _ _ _ => 0x5000#16
  | .andImm _ _ _ => 0x5020#16 | .ldr _ _ _ => 0x6000#16 | .str _ _ _ => 0x7000#16 | .rti => 0x8000#16
  | .not _ _ => 0x9000#16 | .ldi _ _ => 0xA000#16 | .sti _ _ => 0xB000#16 | .jmp _ => 0xC000#16
  | .reserved => 0xD000#16 | .lea _ _ => 0xE000#16 | .trap _ => 0xF000#16

/-- The bits of an instruction's word that the hardware ignores (R91). -/
def ignoredBits : Instr → Word
  | .addReg _ _ _ | .andReg _ _ _ => 0x0018#16
  | .jsrr _ => 0x063F#16
  | .not _ _ => 0x003F#16
  | .jmp _ => 0x0E3F#16
  | .trap _ => 0x0F00#16
  | .rti | .reserved => 0x0FFF#16
  | .br _ _ | .addImm _ _ _ | .ld _ _ | .st _ _ | .jsr _ | .andImm _ _ _ | .ldr _ _ _ | .str _ _ _ | .ldi _ _ | .sti _ _
  | .lea _ _ => 0x0000#16

/-! ### Runs and good states -/

/-- `t` is reached from `s` by some number of steps. -/
inductive Steps : State → State → Prop where
  | refl (s : State) : Steps s s
  | tail {s t u : State} : Steps s t → step t = .next u → Steps s u

/-- `i` stops the machine in `s` (spec/42_control.md R137): a TRAP whose vector is `HALT_VECTOR`. -/
def isHaltTrap (i : Instr) (s : State) : Prop := i = .trap s.cfg.haltVector

/-- A good state: memory in canonical form and the two keyboard cells apart. -/
def State.Inv (s : State) : Prop := s.mem.wf = true ∧ s.cfg.wf = true

end Sys2Proof.Machine
end

