-- ==== Sys2Proof/Certificates/Slice0/Obligations.lean ====
section
/-! DEFINITION. The statements for the provers, from the numbered rules of spec/. A statement whose bit positions, flag numbers
or corner cases the spec itself takes from general knowledge or decides (D1 to D26) says so in its docstring. -/

open Sys2Proof Sys2Proof.Machine

/-! ## Primitives -/

/-- spec/00_scope.md R10: sign extension of a field of `n` bits, and the ranges of the four widths used. -/
def Obligations.SignExtensionFillsWithSignBit : Prop :=
  (∀ (n : Nat) (v : BitVec n), 1 ≤ n → n ≤ 16 →
    (v.getLsbD (n - 1) = true → sext v = v.setWidth 16 ||| (0xFFFF#16 <<< n)) ∧
    (v.getLsbD (n - 1) = false → sext v = v.setWidth 16) ∧
    (∀ k, k < n → (sext v).getLsbD k = v.getLsbD k)) ∧
  (∀ v : BitVec 5, -16 ≤ (sext v).toInt ∧ (sext v).toInt ≤ 15) ∧
  (∀ v : BitVec 6, -32 ≤ (sext v).toInt ∧ (sext v).toInt ≤ 31) ∧
  (∀ v : BitVec 9, -256 ≤ (sext v).toInt ∧ (sext v).toInt ≤ 255) ∧
  (∀ v : BitVec 11, -1024 ≤ (sext v).toInt ∧ (sext v).toInt ≤ 1023)

/-- spec/00_scope.md R12: every register and address sum is modulo 65,536 (PC increment, the three address sums, the ADD
result), and a sum leaves no trace but its low 16 bits: the rest of the state after ADD depends on the result only. -/
def Obligations.ArithmeticWrapsModulo65536 : Prop :=
  (∀ s : State, (fetch s).2.pc.toNat = (s.pc.toNat + 1) % 65536) ∧
  (∀ (s : State) (off : BitVec 9), ((pcRel9 off s).toNat : Int) = ((s.pc.toNat : Int) + off.toInt) % 65536) ∧
  (∀ (s : State) (off : BitVec 11), ((pcRel11 off s).toNat : Int) = ((s.pc.toNat : Int) + off.toInt) % 65536) ∧
  (∀ (s : State) (base : Reg) (off : BitVec 6),
    ((baseRel6 base off s).toNat : Int) = (((s.readReg base).toNat : Int) + off.toInt) % 65536) ∧
  (∀ (s : State) (dr a b : Reg), ∃ t, exec (.addReg dr a b) s = .next t ∧
    (t.readReg dr).toNat = ((s.readReg a).toNat + (s.readReg b).toNat) % 65536 ∧
    t = (s.writeReg dr (t.readReg dr)).setCond (condOf (t.readReg dr))) ∧
  (∀ (s : State) (dr a : Reg) (imm : BitVec 5), ∃ t, exec (.addImm dr a imm) s = .next t ∧
    ((t.readReg dr).toNat : Int) = (((s.readReg a).toNat : Int) + imm.toInt) % 65536 ∧
    t = (s.writeReg dr (t.readReg dr)).setCond (condOf (t.readReg dr)))

/-- spec/00_scope.md R13: `setcc` gives ZERO, NEGATIVE or POSITIVE by the value, exactly one of them, and changes
nothing else. -/
def Obligations.SetccGivesTheSignOfTheValue : Prop :=
  ∀ (v : Word) (s : State),
    (v = 0x0000#16 → (setcc v s).cond = condZ) ∧
    (v ≠ 0x0000#16 → v.getLsbD 15 = true → (setcc v s).cond = condN) ∧
    (v ≠ 0x0000#16 → v.getLsbD 15 = false → (setcc v s).cond = condP) ∧
    FlagsDescribe v (setcc v s).cond ∧
    (condZ ≠ condN ∧ condZ ≠ condP ∧ condN ≠ condP) ∧
    setcc v s = s.setCond (setcc v s).cond

/-! ## Registers -/

/-- spec/10_state.md R20, spec/30_encoding.md R83: a 3-bit index names exactly one register, R0 to R7 in order; a write
replaces the register's 16 bits and touches no other register and nothing else. -/
def Obligations.RegisterFileGetAndSet : Prop :=
  (∀ b : BitVec 3, ∃ r : Reg, r.bits = b ∧ ∀ r', r'.bits = b → r' = r) ∧
  Reg.bits .r0 = 0b000#3 ∧ Reg.bits .r1 = 0b001#3 ∧ Reg.bits .r2 = 0b010#3 ∧ Reg.bits .r3 = 0b011#3 ∧
  Reg.bits .r4 = 0b100#3 ∧ Reg.bits .r5 = 0b101#3 ∧ Reg.bits .r6 = 0b110#3 ∧ Reg.bits .r7 = 0b111#3 ∧
  (∀ (s : State) (r : Reg) (v : Word),
    (s.writeReg r v).readReg r = v ∧ KeepsRegs [r] s (s.writeReg r v) ∧
    s.writeReg r v = s.setRegs (s.writeReg r v).regs)

/-- spec/10_state.md R23 (derived there from the instruction rules): which registers each instruction writes, and which it
reads. An instruction leaves every other register alone, and changing a register it does not read changes
nothing in its result but that register itself, if it is not written. -/
def Obligations.RegistersReadAndWrittenAsTabled : Prop :=
  (∀ (i : Instr) (s t : State), exec i s = .next t → KeepsRegs (regWrites i) s t) ∧
  (∀ (i : Instr) (s t : State) (r : Reg) (v : Word), exec i s = .next t → r ∉ regReads i →
    exec i (s.writeReg r v) = .next (if r ∈ regWrites i then t else t.writeReg r v))

/-- spec/10_state.md R24: PC is written by the fetch, a taken BR, JMP, JSR, JSRR and a non-halt TRAP; it is read by the fetch,
by PC-relative addresses and by link writes; every value of it is a place to fetch from. -/
def Obligations.ProgramCounterReadAndWrittenAsListed : Prop :=
  (∀ s : State, s.run = .running → ∃ t, step s = .next t) ∧
  (∀ s : State, (fetch s).1 = (memRead s.pc s).1 ∧ (fetch s).2.pc = s.pc + 1#16) ∧
  (∀ (i : Instr) (s t : State), exec i s = .next t → writesPC i = false → t.pc = s.pc) ∧
  (∀ (nzp : BitVec 3) (off : BitVec 9) (s t : State), exec (.br nzp off) s = .next t → nzp &&& s.cond = 0#3 → t.pc = s.pc) ∧
  (∀ s t : State, exec (.trap s.cfg.haltVector) s = .next t → t.pc = s.pc) ∧
  (∀ (i : Instr) (s t : State) (p : Addr), exec i s = .next t → readsPC i = false →
    exec i (s.setPC p) = .next (if writesPC i then t else t.setPC p))

/-! ## Condition flags -/

/-- spec/10_state.md section 3: COND is written only by `setcc`, with the value just written to the destination register, and
only by ADD, AND, NOT, LD, LDI, LDR and LEA; the other instructions leave it alone. That LEA sets the flags and that
JSR, JSRR and TRAP do not is the spec's own resolution (90_conflicts.md C1, C7; D22; log entry 19). -/
def Obligations.FlagsWrittenOnlyByTheListedInstructions : Prop :=
  ∀ (i : Instr) (s t : State), exec i s = .next t →
    (∀ dr, flagDest i = some dr → FlagsDescribe (t.readReg dr) t.cond ∧ t = setcc (t.readReg dr) t) ∧
    (flagDest i = none → t.cond = s.cond)

/-- spec/10_state.md R28 (derived there): a flag-updating instruction leaves exactly one flag set, and once exactly one flag
is set every later state of the run has exactly one set. The flag numbers are R27's (D3, log entry 2); which instructions
set flags rests on its resolutions C1 and C7 (D22, log entry 19). -/
def Obligations.ExactlyOneFlagForEver : Prop :=
  (∀ (i : Instr) (dr : Reg) (s t : State), flagDest i = some dr → exec i s = .next t → CondOneHot t.cond) ∧
  (∀ s t : State, Steps s t → CondOneHot s.cond → CondOneHot t.cond)

/-- spec/10_state.md R30 (derived there): COND is read only by BR. For every other instruction a different COND before changes
nothing after, but COND itself where the instruction does not set it; which do rests on the spec's resolutions C1 and C7
(D22, log entry 19). -/
def Obligations.ConditionFlagsReadOnlyByBranch : Prop :=
  ∀ (i : Instr) (s t : State) (c : BitVec 3), (∀ nzp off, i ≠ .br nzp off) → exec i s = .next t →
    exec i (s.setCond c) = .next (if (flagDest i).isSome then t else t.setCond c)

/-! ## The instruction cycle and the end of a run -/

/-- spec/10_state.md R32: a halted machine has no step; a running one reads the word at PC through the bus, increments PC, and
executes the decoded instruction on that state. -/
def Obligations.StepFetchesIncrementsAndExecutes : Prop :=
  (∀ s : State, s.run = .halted → ∀ t, step s ≠ .next t) ∧
  (∀ s : State, s.run = .running →
    step s = exec (decode (memRead s.pc s).1) ((memRead s.pc s).2.setPC (s.pc + 1#16)))

/-- spec/10_state.md section 4, spec/42_control.md section 3: RUN leaves RUNNING only by a halt-trap; nothing else stops the
machine; after it the state never changes; no instruction's effect on anything else depends on RUN; RUN is the output
`running`. That a halt-trap is the TRAP whose vector is `HALT_VECTOR`, recognised by the dispatcher, is the spec's decision
D6 (log entry 14); the output `running` is its reading of a document without ports (D16, log entry 22). -/
def Obligations.OnlyTheHaltTrapStopsTheMachine : Prop :=
  (∀ s : State, s.run = .running →
    ∃ t, step s = .next t ∧ (t.run = .halted ↔ isHaltTrap (decode (fetch s).1) (fetch s).2)) ∧
  (∀ s : State, s.run = .halted → ∀ t, step s ≠ .next t) ∧
  (∀ s t : State, Steps s t → s.run = .halted → t = s) ∧
  (∀ (i : Instr) (s t : State) (r : RunState), exec i s = .next t →
    ∃ t', exec i (s.setRun r) = .next t' ∧ t'.setRun t.run = t ∧ (isHaltTrap i s ∨ (t.run = s.run ∧ t'.run = r))) ∧
  (∀ s : State, s.runningOut = true ↔ s.run = .running)

/-- spec/60_exceptions.md R150: no instruction raises an exception; every instruction completes in every state, whatever
word is fetched (spec/30_encoding.md R92). -/
def Obligations.EveryInstructionCompletesInEveryState : Prop :=
  (∀ (i : Instr) (s : State), ∃ t, exec i s = .next t) ∧
  (∀ (w : Word) (s : State), ∃ t, exec (decode w) s = .next t) ∧
  (∀ (s : State) (f : Fault), step s = .fault f ↔ s.run = .halted) ∧
  (∀ (s : State) (r : Refusal), step s ≠ .refused r)

/-- The document's property S10 (spec/95_test_vectors.md), spec/42_control.md R137: a halt-trap at PC halts the machine in one
step; R7 and PC hold the next address, and nothing else changes, the vector table unread. The dispatcher's test is the
spec's decision D6 (log entry 14), the kept COND its D22 (log entry 19), the word's layout D1 and D2 (log entry 1). -/
def Obligations.HaltTrapHaltsInOneStep : Prop :=
  ∀ s : State, s.run = .running → s.pc ≠ s.cfg.kbsrAddr → (s.cell s.pc).extractLsb' 12 4 = 0xF#4 →
    (s.cell s.pc).extractLsb' 0 8 = s.cfg.haltVector →
    ∃ t, step s = .next t ∧ t.run = .halted ∧ t.readReg .r7 = s.pc + 1#16 ∧ t.pc = s.pc + 1#16 ∧
      KeepsRegs [.r7] s t ∧ t.cond = s.cond ∧ t.mem = s.mem ∧ KeepsKeyboard s t ∧ t.cfg = s.cfg

/-- spec/70_reset_and_hazards.md R180, spec/10_state.md R40 to R46: what reset establishes, for every value of the open launch
inputs, and that `State.reset` is such a launch. The reset input's keeping of parameters and keyboard is log entry 21. The
last clause, that `State.reset` starts at 0x3000, is the model's choice of a value for the open `PC_START` (the default of
D7, log entry 3) and no rule of the spec. -/
def Obligations.ResetEstablishesTheLaunchState : Prop :=
  (∀ (s : State) (gpr : RegFile) (cond : BitVec 3) (image : Memory),
    (s.resetInput gpr cond image).pc = s.cfg.pcStart ∧ (s.resetInput gpr cond image).run = .running ∧
    (s.resetInput gpr cond image).regs = gpr ∧ (s.resetInput gpr cond image).cond = cond ∧
    (s.resetInput gpr cond image).mem = image ∧ KeepsKeyboard s (s.resetInput gpr cond image) ∧
    (s.resetInput gpr cond image).cfg = s.cfg) ∧
  State.reset.pc = State.reset.cfg.pcStart ∧ State.reset.run = .running ∧ State.reset.pc = 0x3000#16

/-! ## Memory, the bus and the keyboard -/

/-- spec/20_memory.md R55: a bus write replaces the one cell, at every address, and does nothing else. -/
def Obligations.BusWriteStoresTheOneCell : Prop :=
  ∀ (s : State) (a : Addr) (v : Word),
    (memWrite a v s).cell a = v ∧ KeepsCells [a] s (memWrite a v s) ∧ KeepsRegs [] s (memWrite a v s) ∧
    (memWrite a v s).pc = s.pc ∧ (memWrite a v s).cond = s.cond ∧ (memWrite a v s).run = s.run ∧
    KeepsKeyboard s (memWrite a v s) ∧ (memWrite a v s).cfg = s.cfg

/-- spec/20_memory.md R52 (D12): a bus read of `KBSR_ADDR` polls and returns the status cell's new content; a read of any other
address returns the cell and changes nothing, the data cell included (R54, log entry 18). -/
def Obligations.BusReadPollsOnlyAtTheStatusAddress : Prop :=
  ∀ (s : State) (a : Addr),
    (a ≠ s.cfg.kbsrAddr → memRead a s = (s.cell a, s)) ∧
    (a = s.cfg.kbsrAddr → memRead a s = ((pollKeyboard s).cell a, pollKeyboard s))

/-- spec/20_memory.md R53: a poll. With a character available, the status cell becomes 0x8000 (D10, log entry 10), the data cell
the zero-extended character (D11, log entry 11), and exactly that character is consumed; with none, the status cell
is cleared and the data cell kept. `KBQ` at the poll is what was pending and what has arrived since (log entry 8). -/
def Obligations.PollTakesOneCharacterOrClearsTheStatus : Prop :=
  ∀ s : State, s.cfg.wf = true →
    (s.kbq ++ s.kbInput.next.1 = [] →
      (pollKeyboard s).cell s.cfg.kbsrAddr = 0x0000#16 ∧ KeepsCells [s.cfg.kbsrAddr] s (pollKeyboard s) ∧
      (pollKeyboard s).kbq = []) ∧
    (∀ (c : Byte) (rest : List Byte), s.kbq ++ s.kbInput.next.1 = c :: rest →
      (pollKeyboard s).cell s.cfg.kbsrAddr = 0x8000#16 ∧
      ((pollKeyboard s).cell s.cfg.kbdrAddr).toNat = c.toNat ∧
      KeepsCells [s.cfg.kbsrAddr, s.cfg.kbdrAddr] s (pollKeyboard s) ∧
      (pollKeyboard s).kbq = rest) ∧
    (pollKeyboard s).kbInput = s.kbInput.next.2 ∧ KeepsRegs [] s (pollKeyboard s) ∧ (pollKeyboard s).pc = s.pc ∧
    (pollKeyboard s).cond = s.cond ∧ (pollKeyboard s).run = s.run ∧ (pollKeyboard s).cfg = s.cfg

/-- spec/20_memory.md R56 (derived there, D17): a fetch from the status address polls, and what it executes is the poll's
value, which is a no-op either way (0x8000 RTI, 0x0000 a BR never taken), whatever word was stored there. -/
def Obligations.FetchFromStatusAddressPollsAndDoesNothingElse : Prop :=
  ∀ s : State, s.cfg.wf = true → s.run = .running → s.pc = s.cfg.kbsrAddr →
    step s = .next ((pollKeyboard s).setPC (s.pc + 1#16))

/-- spec/20_memory.md R57, R61 (derived there): the keyboard is polled once for each bus read of `KBSR_ADDR` in R57's table and
never otherwise. With free input, the poll counter moves by the number of such reads. The table is D18's; that fetch,
pointer and vector reads poll is D17 (log entry 12), the halt-trap's lack of a read D6 (log entry 14), the counter log
entry 8. -/
def Obligations.PollsAreTheBusReadsOfTheStatusAddress : Prop :=
  (∀ (i : Instr) (s t : State) (n : Nat), s.kbInput = .free n → exec i s = .next t →
    t.kbInput = .free (n + (busReads i s).count s.cfg.kbsrAddr)) ∧
  (∀ (i : Instr) (s t : State), s.cfg.kbsrAddr ∉ busReads i s → exec i s = .next t → KeepsKeyboard s t) ∧
  (∀ (s t : State) (n : Nat), s.kbInput = .free n → step s = .next t →
    t.kbInput = .free (n + (s.pc :: busReads (decode (fetch s).1) (fetch s).2).count s.cfg.kbsrAddr))

/-- spec/10_state.md R33, spec/20_memory.md R64: a memory cell changes only by an instruction's one bus write and by polls,
which touch only the two keyboard cells; the written cell holds the written word. The accesses are D18's; that pointer and
vector reads poll is D17 (log entry 12). -/
def Obligations.CellsChangeOnlyByStoresAndPolls : Prop :=
  ∀ (i : Instr) (s t : State), exec i s = .next t →
    (∀ (a : Addr) (v : Word), busWrite i s = some (a, v) → t.cell a = v) ∧
    (∀ a : Addr, (∀ v, busWrite i s ≠ some (a, v)) → s.cfg.kbsrAddr ∉ busReads i s → t.cell a = s.cell a) ∧
    (∀ a : Addr, (∀ v, busWrite i s ≠ some (a, v)) → a ≠ s.cfg.kbsrAddr → a ≠ s.cfg.kbdrAddr → t.cell a = s.cell a)

/-- spec/10_state.md R37 (D13): characters are taken in arrival order, each at most once and at most one for each bus read of
the status address (every read, D17, log entry 12); none is lost from the queue. Stated for scripted input, whose whole
future is written down (log entry 9). -/
def Obligations.CharactersAreTakenInArrivalOrder : Prop :=
  ∀ (s t : State) (future : List (List Byte)), s.kbInput = .script future → step s = .next t →
    ∃ (taken : List Byte) (later : List (List Byte)), t.kbInput = .script later ∧
      s.kbq ++ future.flatten = taken ++ (t.kbq ++ later.flatten) ∧
      taken.length ≤ (s.pc :: busReads (decode (fetch s).1) (fetch s).2).count s.cfg.kbsrAddr

/-- spec/20_memory.md R61, R64: the keyboard is observed through reads of the status address and in no other way. A step that
makes no such read does the same whatever is pending and whatever will arrive. Which reads there are is D18's table and
D17 (log entry 12). -/
def Obligations.KeyboardUnobservedWithoutStatusRead : Prop :=
  ∀ (s t : State) (q : List Byte) (k : KbInput), s.pc ≠ s.cfg.kbsrAddr →
    s.cfg.kbsrAddr ∉ busReads (decode (fetch s).1) (fetch s).2 → step s = .next t →
    step ((s.setKbq q).setKbInput k) = .next ((t.setKbq q).setKbInput k)

/-- spec/41_data_movement.md R127 (derived there), the document's property S9: a load right after a store, at the store's
address, gives the stored word and its flags, unless a bus read of the load's body polls. -/
def Obligations.StoreThenLoadGivesTheStoredWord : Prop :=
  ∀ (s t u : State) (a : Addr) (v : Word) (dr : Reg), step s = .next t → step t = .next u →
    busWrite (decode (fetch s).1) (fetch s).2 = some (a, v) →
    loadOf (decode (fetch t).1) (fetch t).2 = some (dr, a) →
    t.cfg.kbsrAddr ∉ busReads (decode (fetch t).1) (fetch t).2 →
    u.readReg dr = v ∧ FlagsDescribe v u.cond

/-- spec/20_memory.md R67 (derived there): a store to the next instruction's address is what is fetched next. -/
def Obligations.StoreIsSeenByTheNextFetch : Prop :=
  ∀ (s t : State) (v : Word), step s = .next t → t.pc ≠ t.cfg.kbsrAddr →
    busWrite (decode (fetch s).1) (fetch s).2 = some (t.pc, v) →
    step t = exec (decode v) (t.setPC (t.pc + 1#16))

/-- INVARIANT. Every step keeps memory in its canonical form and the keyboard cells apart, and changes no parameter
(spec/00_scope.md R7; log entries 3 and 7). -/
def Obligations.StepKeepsMemoryCanonicalAndParameters : Prop :=
  ∀ s t : State, s.Inv → step s = .next t → t.Inv ∧ t.cfg = s.cfg

/-- The invariant holds right after reset (log entries 3 and 6). -/
def Obligations.ResetMeetsTheMemoryInvariant : Prop := State.reset.Inv

/-- Canonical memories with the same cells are the same list, so states can be compared (log entry 7). -/
def Obligations.CanonicalMemoriesWithEqualCellsAreEqual : Prop :=
  ∀ m m' : Memory, m.wf = true → m'.wf = true → (∀ a : Addr, m.read a = m'.read a) → m = m'

/-! ## Encoding. The opcode numbers and field positions are the spec's general knowledge (D1, D2; log entry 1). -/

/-- spec/30_encoding.md R88, R90: decoding an encoded instruction gives it back, for every instruction and every operand. -/
def Obligations.DecodingAnEncodedInstructionGivesItBack : Prop :=
  ∀ i : Instr, i.wellFormed = true → decode (encode i) = i

/-- spec/30_encoding.md R90, R91 (D21): two words decode alike exactly when they agree on every bit that is not ignored, so no
ignored bit matters and no other bit is dropped. -/
def Obligations.WordsDecodeAlikeUpToIgnoredBits : Prop :=
  ∀ w w' : Word, decode w = decode w' ↔ (w ^^^ w') &&& ~~~ ignoredBits (decode w) = 0#16

/-- spec/30_encoding.md R88 to R90 and spec/opcode_table.json: every word matches the fixed bits of exactly one of the nineteen
rows, that of the instruction it decodes to. -/
def Obligations.EveryWordMatchesExactlyItsDecodedRow : Prop :=
  ∀ (w : Word) (i : Instr), w &&& rowMask i = rowMatch i ↔ rowMatch i = rowMatch (decode w)

/-- spec/30_encoding.md R93 (derived there): the words 0x0000 to 0x01FF, every RTI and every RESERVED word do nothing. -/
def Obligations.NoOpWordsDoNothing : Prop :=
  ∀ (w : Word) (s : State),
    (w.toNat < 0x0200 ∨ (0x8000 ≤ w.toNat ∧ w.toNat < 0x9000) ∨ (0xD000 ≤ w.toNat ∧ w.toNat < 0xE000)) →
    exec (decode w) s = .next s

/-- Words of spec/95_test_vectors.md (D1 to D14 of section 2.6), written from the layouts of R88. -/
def Obligations.WordsOfTheSpecDecodeAsListed : Prop :=
  decode 0x0000#16 = .br 0b000#3 0#9 ∧ decode 0x1FFF#16 = .addImm .r7 .r7 0x1F#5 ∧ decode 0x1FDF#16 = .addReg .r7 .r7 .r7 ∧
  decode 0x5A5A#16 = .andReg .r5 .r1 .r2 ∧ decode 0x4FFF#16 = .jsr 0x7FF#11 ∧ decode 0x47FF#16 = .jsrr .r7 ∧
  decode 0x7FFF#16 = .str .r7 .r7 0x3F#6 ∧ decode 0xFFFF#16 = .trap 0xFF#8

/-! ## Operate instructions. In the statements of the nineteen forms the first part says which words are the form and what
their fields are (spec/30_encoding.md R82, R88, general knowledge by D1 and D2, log entry 1); the second says that it
completes in every state, what it writes, and that nothing else changes. `s.pc` is the already-incremented PC. -/

/-- ADD, register form: spec/40_operate.md R110. -/
def Obligations.AddRegisterForm : Prop :=
  (∀ (ir : Word) (dr a b : Reg), ir.extractLsb' 12 4 = 0b0001#4 → ir.getLsbD 5 = false → ir.extractLsb' 9 3 = dr.bits →
    ir.extractLsb' 6 3 = a.bits → ir.extractLsb' 0 3 = b.bits → decode ir = .addReg dr a b) ∧
  (∀ (s : State) (dr a b : Reg), ∃ t, exec (.addReg dr a b) s = .next t ∧
    (t.readReg dr).toNat = ((s.readReg a).toNat + (s.readReg b).toNat) % 65536 ∧ FlagsDescribe (t.readReg dr) t.cond ∧
    KeepsRegs [dr] s t ∧ t.pc = s.pc ∧ t.run = s.run ∧ SameMemoryAndKeyboard s t ∧ t.cfg = s.cfg)

/-- ADD, immediate form: spec/40_operate.md R111. -/
def Obligations.AddImmediateForm : Prop :=
  (∀ (ir : Word) (dr a : Reg), ir.extractLsb' 12 4 = 0b0001#4 → ir.getLsbD 5 = true → ir.extractLsb' 9 3 = dr.bits →
    ir.extractLsb' 6 3 = a.bits → decode ir = .addImm dr a (ir.extractLsb' 0 5)) ∧
  (∀ (s : State) (dr a : Reg) (imm : BitVec 5), ∃ t, exec (.addImm dr a imm) s = .next t ∧
    ((t.readReg dr).toNat : Int) = (((s.readReg a).toNat : Int) + imm.toInt) % 65536 ∧
    FlagsDescribe (t.readReg dr) t.cond ∧
    KeepsRegs [dr] s t ∧ t.pc = s.pc ∧ t.run = s.run ∧ SameMemoryAndKeyboard s t ∧ t.cfg = s.cfg)

/-- AND, register form: spec/40_operate.md R112. -/
def Obligations.AndRegisterForm : Prop :=
  (∀ (ir : Word) (dr a b : Reg), ir.extractLsb' 12 4 = 0b0101#4 → ir.getLsbD 5 = false → ir.extractLsb' 9 3 = dr.bits →
    ir.extractLsb' 6 3 = a.bits → ir.extractLsb' 0 3 = b.bits → decode ir = .andReg dr a b) ∧
  (∀ (s : State) (dr a b : Reg), ∃ t, exec (.andReg dr a b) s = .next t ∧
    (∀ k, (t.readReg dr).getLsbD k = ((s.readReg a).getLsbD k && (s.readReg b).getLsbD k)) ∧
    FlagsDescribe (t.readReg dr) t.cond ∧
    KeepsRegs [dr] s t ∧ t.pc = s.pc ∧ t.run = s.run ∧ SameMemoryAndKeyboard s t ∧ t.cfg = s.cfg)

/-- AND, immediate form: spec/40_operate.md R113. Bits 4 and above of the operand are the immediate's sign bit. -/
def Obligations.AndImmediateForm : Prop :=
  (∀ (ir : Word) (dr a : Reg), ir.extractLsb' 12 4 = 0b0101#4 → ir.getLsbD 5 = true → ir.extractLsb' 9 3 = dr.bits →
    ir.extractLsb' 6 3 = a.bits → decode ir = .andImm dr a (ir.extractLsb' 0 5)) ∧
  (∀ (s : State) (dr a : Reg) (imm : BitVec 5), ∃ t, exec (.andImm dr a imm) s = .next t ∧
    (∀ k, (t.readReg dr).getLsbD k = ((s.readReg a).getLsbD k && imm.getLsbD (min k 4))) ∧
    FlagsDescribe (t.readReg dr) t.cond ∧
    KeepsRegs [dr] s t ∧ t.pc = s.pc ∧ t.run = s.run ∧ SameMemoryAndKeyboard s t ∧ t.cfg = s.cfg)

/-- NOT: spec/40_operate.md R114. -/
def Obligations.NotComplements : Prop :=
  (∀ (ir : Word) (dr a : Reg), ir.extractLsb' 12 4 = 0b1001#4 → ir.extractLsb' 9 3 = dr.bits →
    ir.extractLsb' 6 3 = a.bits → decode ir = .not dr a) ∧
  (∀ (s : State) (dr a : Reg), ∃ t, exec (.not dr a) s = .next t ∧
    (t.readReg dr).toNat = 65535 - (s.readReg a).toNat ∧ FlagsDescribe (t.readReg dr) t.cond ∧
    KeepsRegs [dr] s t ∧ t.pc = s.pc ∧ t.run = s.run ∧ SameMemoryAndKeyboard s t ∧ t.cfg = s.cfg)

/-! ## Data movement -/

/-- LD: spec/41_data_movement.md R120. What a bus read of the status address gives is the spec's decision D12 (log entry 12). -/
def Obligations.LoadPcRelative : Prop :=
  (∀ (ir : Word) (dr : Reg), ir.extractLsb' 12 4 = 0b0010#4 → ir.extractLsb' 9 3 = dr.bits →
    decode ir = .ld dr (ir.extractLsb' 0 9)) ∧
  (∀ (s : State) (dr : Reg) (off : BitVec 9), ∃ t, exec (.ld dr off) s = .next t ∧
    ((pcRel9 off s).toNat : Int) = ((s.pc.toNat : Int) + off.toInt) % 65536 ∧
    t.readReg dr = (memRead (pcRel9 off s) s).1 ∧ FlagsDescribe (t.readReg dr) t.cond ∧
    KeepsRegs [dr] s t ∧ t.pc = s.pc ∧ t.run = s.run ∧ t.cfg = s.cfg ∧
    SameMemoryAndKeyboard (memRead (pcRel9 off s) s).2 t ∧ KeepsCells [s.cfg.kbsrAddr, s.cfg.kbdrAddr] s t ∧
    (pcRel9 off s ≠ s.cfg.kbsrAddr → t.readReg dr = s.cell (pcRel9 off s) ∧ SameMemoryAndKeyboard s t))

/-- LDI: spec/41_data_movement.md R121. Two bus reads, the pointer first, the second on the state the first leaves (D18). That
the pointer's read polls too is the spec's decision D17, what a status read gives its D12 (log entry 12). -/
def Obligations.LoadIndirect : Prop :=
  (∀ (ir : Word) (dr : Reg), ir.extractLsb' 12 4 = 0b1010#4 → ir.extractLsb' 9 3 = dr.bits →
    decode ir = .ldi dr (ir.extractLsb' 0 9)) ∧
  (∀ (s : State) (dr : Reg) (off : BitVec 9), ∃ t, exec (.ldi dr off) s = .next t ∧
    t.readReg dr = (memRead (memRead (pcRel9 off s) s).1 (memRead (pcRel9 off s) s).2).1 ∧
    FlagsDescribe (t.readReg dr) t.cond ∧
    KeepsRegs [dr] s t ∧ t.pc = s.pc ∧ t.run = s.run ∧ t.cfg = s.cfg ∧
    SameMemoryAndKeyboard (memRead (memRead (pcRel9 off s) s).1 (memRead (pcRel9 off s) s).2).2 t ∧
    KeepsCells [s.cfg.kbsrAddr, s.cfg.kbdrAddr] s t ∧
    (pcRel9 off s ≠ s.cfg.kbsrAddr → s.cell (pcRel9 off s) ≠ s.cfg.kbsrAddr →
      t.readReg dr = s.cell (s.cell (pcRel9 off s)) ∧ SameMemoryAndKeyboard s t))

/-- LDR: spec/41_data_movement.md R122. What a bus read of the status address gives is the spec's decision D12 (log entry 12). -/
def Obligations.LoadBaseOffset : Prop :=
  (∀ (ir : Word) (dr base : Reg), ir.extractLsb' 12 4 = 0b0110#4 → ir.extractLsb' 9 3 = dr.bits →
    ir.extractLsb' 6 3 = base.bits → decode ir = .ldr dr base (ir.extractLsb' 0 6)) ∧
  (∀ (s : State) (dr base : Reg) (off : BitVec 6), ∃ t, exec (.ldr dr base off) s = .next t ∧
    ((baseRel6 base off s).toNat : Int) = (((s.readReg base).toNat : Int) + off.toInt) % 65536 ∧
    t.readReg dr = (memRead (baseRel6 base off s) s).1 ∧ FlagsDescribe (t.readReg dr) t.cond ∧
    KeepsRegs [dr] s t ∧ t.pc = s.pc ∧ t.run = s.run ∧ t.cfg = s.cfg ∧
    SameMemoryAndKeyboard (memRead (baseRel6 base off s) s).2 t ∧ KeepsCells [s.cfg.kbsrAddr, s.cfg.kbdrAddr] s t ∧
    (baseRel6 base off s ≠ s.cfg.kbsrAddr → t.readReg dr = s.cell (baseRel6 base off s) ∧ SameMemoryAndKeyboard s t))

/-- LEA: spec/41_data_movement.md R123; it sets the flags (90_conflicts.md C1, log entry 19) and never polls. -/
def Obligations.LoadEffectiveAddress : Prop :=
  (∀ (ir : Word) (dr : Reg), ir.extractLsb' 12 4 = 0b1110#4 → ir.extractLsb' 9 3 = dr.bits →
    decode ir = .lea dr (ir.extractLsb' 0 9)) ∧
  (∀ (s : State) (dr : Reg) (off : BitVec 9), ∃ t, exec (.lea dr off) s = .next t ∧
    ((t.readReg dr).toNat : Int) = ((s.pc.toNat : Int) + off.toInt) % 65536 ∧ FlagsDescribe (t.readReg dr) t.cond ∧
    KeepsRegs [dr] s t ∧ t.pc = s.pc ∧ t.run = s.run ∧ SameMemoryAndKeyboard s t ∧ t.cfg = s.cfg)

/-- ST: spec/41_data_movement.md R124. -/
def Obligations.StorePcRelative : Prop :=
  (∀ (ir : Word) (sr : Reg), ir.extractLsb' 12 4 = 0b0011#4 → ir.extractLsb' 9 3 = sr.bits →
    decode ir = .st sr (ir.extractLsb' 0 9)) ∧
  (∀ (s : State) (sr : Reg) (off : BitVec 9), ∃ t, exec (.st sr off) s = .next t ∧
    ((pcRel9 off s).toNat : Int) = ((s.pc.toNat : Int) + off.toInt) % 65536 ∧
    t.cell (pcRel9 off s) = s.readReg sr ∧ KeepsCells [pcRel9 off s] s t ∧
    KeepsRegs [] s t ∧ t.cond = s.cond ∧ t.pc = s.pc ∧ t.run = s.run ∧ KeepsKeyboard s t ∧ t.cfg = s.cfg)

/-- STI: spec/41_data_movement.md R125. The pointer is read through the bus, then the word is written at it (D18); that this
read polls at the status address is the spec's decision D17 (log entry 12). -/
def Obligations.StoreIndirect : Prop :=
  (∀ (ir : Word) (sr : Reg), ir.extractLsb' 12 4 = 0b1011#4 → ir.extractLsb' 9 3 = sr.bits →
    decode ir = .sti sr (ir.extractLsb' 0 9)) ∧
  (∀ (s : State) (sr : Reg) (off : BitVec 9), ∃ t, exec (.sti sr off) s = .next t ∧
    t.cell (memRead (pcRel9 off s) s).1 = s.readReg sr ∧
    KeepsCells [(memRead (pcRel9 off s) s).1] (memRead (pcRel9 off s) s).2 t ∧
    KeepsKeyboard (memRead (pcRel9 off s) s).2 t ∧
    KeepsCells [(memRead (pcRel9 off s) s).1, s.cfg.kbsrAddr, s.cfg.kbdrAddr] s t ∧
    KeepsRegs [] s t ∧ t.cond = s.cond ∧ t.pc = s.pc ∧ t.run = s.run ∧ t.cfg = s.cfg ∧
    (pcRel9 off s ≠ s.cfg.kbsrAddr → t.cell (s.cell (pcRel9 off s)) = s.readReg sr ∧
      KeepsCells [s.cell (pcRel9 off s)] s t ∧ KeepsKeyboard s t))

/-- STR: spec/41_data_movement.md R126. -/
def Obligations.StoreBaseOffset : Prop :=
  (∀ (ir : Word) (sr base : Reg), ir.extractLsb' 12 4 = 0b0111#4 → ir.extractLsb' 9 3 = sr.bits →
    ir.extractLsb' 6 3 = base.bits → decode ir = .str sr base (ir.extractLsb' 0 6)) ∧
  (∀ (s : State) (sr base : Reg) (off : BitVec 6), ∃ t, exec (.str sr base off) s = .next t ∧
    ((baseRel6 base off s).toNat : Int) = (((s.readReg base).toNat : Int) + off.toInt) % 65536 ∧
    t.cell (baseRel6 base off s) = s.readReg sr ∧ KeepsCells [baseRel6 base off s] s t ∧
    KeepsRegs [] s t ∧ t.cond = s.cond ∧ t.pc = s.pc ∧ t.run = s.run ∧ KeepsKeyboard s t ∧ t.cfg = s.cfg)

/-! ## Control -/

/-- BR: spec/42_control.md R130; the selector bits are paired with the flags as in R27 and R87 (D3, log entry 2). -/
def Obligations.BranchOnSelectedFlag : Prop :=
  (∀ ir : Word, ir.extractLsb' 12 4 = 0b0000#4 → decode ir = .br (ir.extractLsb' 9 3) (ir.extractLsb' 0 9)) ∧
  (∀ (s : State) (nzp : BitVec 3) (off : BitVec 9), ∃ t, exec (.br nzp off) s = .next t ∧
    ((nzp.getLsbD 2 && s.cond.getLsbD 2 || nzp.getLsbD 1 && s.cond.getLsbD 1 || nzp.getLsbD 0 && s.cond.getLsbD 0) = true →
      (t.pc.toNat : Int) = ((s.pc.toNat : Int) + off.toInt) % 65536) ∧
    ((nzp.getLsbD 2 && s.cond.getLsbD 2 || nzp.getLsbD 1 && s.cond.getLsbD 1 || nzp.getLsbD 0 && s.cond.getLsbD 0) = false →
      t.pc = s.pc) ∧
    KeepsRegs [] s t ∧ t.cond = s.cond ∧ t.run = s.run ∧ SameMemoryAndKeyboard s t ∧ t.cfg = s.cfg)

/-- JMP and RET: spec/42_control.md R131. -/
def Obligations.JumpThroughRegister : Prop :=
  (∀ (ir : Word) (base : Reg), ir.extractLsb' 12 4 = 0b1100#4 → ir.extractLsb' 6 3 = base.bits → decode ir = .jmp base) ∧
  (∀ (s : State) (base : Reg), ∃ t, exec (.jmp base) s = .next t ∧ t.pc = s.readReg base ∧
    KeepsRegs [] s t ∧ t.cond = s.cond ∧ t.run = s.run ∧ SameMemoryAndKeyboard s t ∧ t.cfg = s.cfg)

/-- JSR: spec/42_control.md R133. That COND stays is the spec's resolution C7 (D22, log entry 19). -/
def Obligations.JumpToSubroutinePcRelative : Prop :=
  (∀ ir : Word, ir.extractLsb' 12 4 = 0b0100#4 → ir.getLsbD 11 = true → decode ir = .jsr (ir.extractLsb' 0 11)) ∧
  (∀ (s : State) (off : BitVec 11), ∃ t, exec (.jsr off) s = .next t ∧
    t.readReg .r7 = s.pc ∧ (t.pc.toNat : Int) = ((s.pc.toNat : Int) + off.toInt) % 65536 ∧
    KeepsRegs [.r7] s t ∧ t.cond = s.cond ∧ t.run = s.run ∧ SameMemoryAndKeyboard s t ∧ t.cfg = s.cfg)

/-- JSRR: spec/42_control.md R134. With base R7 the link is written first, so PC stays at the next instruction: the spec's
decision D14 (log entry 13). That COND stays is its resolution C7 (D22, log entry 19). -/
def Obligations.JumpToSubroutineThroughRegister : Prop :=
  (∀ (ir : Word) (base : Reg), ir.extractLsb' 12 4 = 0b0100#4 → ir.getLsbD 11 = false → ir.extractLsb' 6 3 = base.bits →
    decode ir = .jsrr base) ∧
  (∀ (s : State) (base : Reg), ∃ t, exec (.jsrr base) s = .next t ∧
    t.readReg .r7 = s.pc ∧ (base ≠ .r7 → t.pc = s.readReg base) ∧ (base = .r7 → t.pc = s.pc) ∧
    KeepsRegs [.r7] s t ∧ t.cond = s.cond ∧ t.run = s.run ∧ SameMemoryAndKeyboard s t ∧ t.cfg = s.cfg)

/-- TRAP: spec/42_control.md R137, spec/60_exceptions.md R153. Every vector saves the incremented PC in R7 and nothing else; that
COND stays is the spec's decision D22 (log entry 19). The halt vector stops the machine without a bus access (D6, log
entry 14); any other jumps to the word a bus read of its table entry gives, the vector unsigned (D5, log entry 15), a
read that polls at the status address (D12, D17; log entry 12). -/
def Obligations.TrapLinksAndHaltsOrJumpsThroughTheTable : Prop :=
  (∀ ir : Word, ir.extractLsb' 12 4 = 0b1111#4 → decode ir = .trap (ir.extractLsb' 0 8)) ∧
  (∀ (s : State) (vector : BitVec 8), ∃ t, exec (.trap vector) s = .next t ∧
    t.readReg .r7 = s.pc ∧ KeepsRegs [.r7] s t ∧ t.cond = s.cond ∧ t.cfg = s.cfg ∧
    (vector = s.cfg.haltVector → t.run = .halted ∧ t.pc = s.pc ∧ SameMemoryAndKeyboard s t) ∧
    (vector ≠ s.cfg.haltVector →
      t.run = s.run ∧ (trapSlot vector s).toNat = (s.cfg.trapTableBase.toNat + vector.toNat) % 65536 ∧
      t.pc = (memRead (trapSlot vector s) s).1 ∧ SameMemoryAndKeyboard (memRead (trapSlot vector s) s).2 t ∧
      KeepsCells [s.cfg.kbsrAddr, s.cfg.kbdrAddr] s t ∧
      (trapSlot vector s ≠ s.cfg.kbsrAddr → t.pc = s.cell (trapSlot vector s) ∧ SameMemoryAndKeyboard s t)))

/-- RTI: spec/42_control.md R139, a defined no-op on every word 0x8000 to 0x8FFF. -/
def Obligations.RtiIsNoOp : Prop :=
  (∀ ir : Word, ir.extractLsb' 12 4 = 0b1000#4 → decode ir = .rti) ∧ (∀ s : State, exec .rti s = .next s)

/-- RESERVED: spec/42_control.md R140, a defined no-op on every word 0xD000 to 0xDFFF. -/
def Obligations.ReservedIsNoOp : Prop :=
  (∀ ir : Word, ir.extractLsb' 12 4 = 0b1101#4 → decode ir = .reserved) ∧ (∀ s : State, exec .reserved s = .next s)

/-- spec/42_control.md R135, R142, spec/60_exceptions.md R154 (derived there): JSR, JSRR and TRAP leave the address of the next
instruction in R7, and `JMP R7` in any state with that R7 returns to it and restores nothing. -/
def Obligations.JumpThroughLinkReturnsAfterTheCall : Prop :=
  ∀ (i : Instr) (s t u : State), ((∃ off, i = .jsr off) ∨ (∃ base, i = .jsrr base) ∨ (∃ v, i = .trap v)) →
    exec i s = .next t → u.readReg .r7 = t.readReg .r7 → exec (.jmp .r7) u = .next (u.setPC s.pc)
end

