-- ==== Sys2Proof/Laws/Bits.lean ====
section
/-! SUPPORT. Extensions as numbers (spec/00_scope.md R10, R11), sums modulo 65,536 (R12) and the flag of a value (R13). -/

namespace Sys2Proof.Machine

theorem sext_toInt {n : Nat} (v : BitVec n) (h : n ≤ 16) : (sext v).toInt = v.toInt := by
  simpa [sext] using BitVec.toInt_signExtend_of_le h

theorem zext_toNat {n : Nat} (v : BitVec n) (h : n ≤ 16) : (zext v).toNat = v.toNat := by
  have := v.isLt
  have h2 : 2 ^ n ≤ 2 ^ 16 := Nat.pow_le_pow_right (by decide) h
  simp only [zext, BitVec.toNat_setWidth]
  exact Nat.mod_eq_of_lt (by omega)

/-- A sum with a sign-extended field is the exact sum, wrapped. -/
theorem add_sext_toNat {n : Nat} (a : Word) (v : BitVec n) (h : n ≤ 16) :
    ((a + sext v).toNat : Int) = ((a.toNat : Int) + v.toInt) % 65536 := by
  rw [← sext_toInt v h, BitVec.toNat_add, BitVec.toInt_eq_toNat_cond]
  have := (sext v).isLt
  split <;> push_cast <;> omega

/-- A value's flag: zero, negative or positive. -/
theorem condOf_cases (v : Word) :
    (v = 0#16 ∧ condOf v = condZ) ∨ (v ≠ 0#16 ∧ v.getLsbD 15 = true ∧ condOf v = condN) ∨
      (v ≠ 0#16 ∧ v.getLsbD 15 = false ∧ condOf v = condP) := by
  unfold condOf
  by_cases h : v = 0#16
  · simp [h]
  · by_cases hs : v.getLsbD 15 = true <;> simp_all

end Sys2Proof.Machine
end

