-- ==== Sys2Proof/Laws/State.lean ====
section
/-! SUPPORT. One lemma for each field of `State` after each one-field update, true by definition, and what the updates do to
the two views of a state, `readReg` and `cell`. Later proofs use these and never unfold an update. -/

namespace Sys2Proof.Machine

variable (s : State)

/-- Two states with equal fields are equal. -/
theorem State.eq_of_fields {s t : State} (regs : s.regs = t.regs) (pc : s.pc = t.pc) (cond : s.cond = t.cond)
    (run : s.run = t.run) (mem : s.mem = t.mem) (kbq : s.kbq = t.kbq) (kbInput : s.kbInput = t.kbInput)
    (cfg : s.cfg = t.cfg) : s = t := by
  cases s; cases t; simp_all

/-! ### `setRegs` -/

@[simp] theorem State.setRegs_regs (v : RegFile) : (s.setRegs v).regs = v := rfl
@[simp] theorem State.setRegs_pc (v : RegFile) : (s.setRegs v).pc = s.pc := rfl
@[simp] theorem State.setRegs_cond (v : RegFile) : (s.setRegs v).cond = s.cond := rfl
@[simp] theorem State.setRegs_run (v : RegFile) : (s.setRegs v).run = s.run := rfl
@[simp] theorem State.setRegs_mem (v : RegFile) : (s.setRegs v).mem = s.mem := rfl
@[simp] theorem State.setRegs_kbq (v : RegFile) : (s.setRegs v).kbq = s.kbq := rfl
@[simp] theorem State.setRegs_kbInput (v : RegFile) : (s.setRegs v).kbInput = s.kbInput := rfl
@[simp] theorem State.setRegs_cfg (v : RegFile) : (s.setRegs v).cfg = s.cfg := rfl
@[simp] theorem State.setRegs_readReg (v : RegFile) (r : Reg) : (s.setRegs v).readReg r = v.get r := rfl
@[simp] theorem State.setRegs_cell (v : RegFile) (a : Addr) : (s.setRegs v).cell a = s.cell a := rfl
@[simp] theorem State.setRegs_setRegs (v w : RegFile) : (s.setRegs v).setRegs w = s.setRegs w := rfl
@[simp] theorem State.setRegs_same : s.setRegs s.regs = s := rfl

/-! ### `setPC` -/

@[simp] theorem State.setPC_regs (v : Addr) : (s.setPC v).regs = s.regs := rfl
@[simp] theorem State.setPC_pc (v : Addr) : (s.setPC v).pc = v := rfl
@[simp] theorem State.setPC_cond (v : Addr) : (s.setPC v).cond = s.cond := rfl
@[simp] theorem State.setPC_run (v : Addr) : (s.setPC v).run = s.run := rfl
@[simp] theorem State.setPC_mem (v : Addr) : (s.setPC v).mem = s.mem := rfl
@[simp] theorem State.setPC_kbq (v : Addr) : (s.setPC v).kbq = s.kbq := rfl
@[simp] theorem State.setPC_kbInput (v : Addr) : (s.setPC v).kbInput = s.kbInput := rfl
@[simp] theorem State.setPC_cfg (v : Addr) : (s.setPC v).cfg = s.cfg := rfl
@[simp] theorem State.setPC_readReg (v : Addr) (r : Reg) : (s.setPC v).readReg r = s.readReg r := rfl
@[simp] theorem State.setPC_cell (v : Addr) (a : Addr) : (s.setPC v).cell a = s.cell a := rfl
@[simp] theorem State.setPC_setPC (v w : Addr) : (s.setPC v).setPC w = s.setPC w := rfl
@[simp] theorem State.setPC_same : s.setPC s.pc = s := rfl

/-! ### `setCond` -/

@[simp] theorem State.setCond_regs (v : BitVec 3) : (s.setCond v).regs = s.regs := rfl
@[simp] theorem State.setCond_pc (v : BitVec 3) : (s.setCond v).pc = s.pc := rfl
@[simp] theorem State.setCond_cond (v : BitVec 3) : (s.setCond v).cond = v := rfl
@[simp] theorem State.setCond_run (v : BitVec 3) : (s.setCond v).run = s.run := rfl
@[simp] theorem State.setCond_mem (v : BitVec 3) : (s.setCond v).mem = s.mem := rfl
@[simp] theorem State.setCond_kbq (v : BitVec 3) : (s.setCond v).kbq = s.kbq := rfl
@[simp] theorem State.setCond_kbInput (v : BitVec 3) : (s.setCond v).kbInput = s.kbInput := rfl
@[simp] theorem State.setCond_cfg (v : BitVec 3) : (s.setCond v).cfg = s.cfg := rfl
@[simp] theorem State.setCond_readReg (v : BitVec 3) (r : Reg) : (s.setCond v).readReg r = s.readReg r := rfl
@[simp] theorem State.setCond_cell (v : BitVec 3) (a : Addr) : (s.setCond v).cell a = s.cell a := rfl
@[simp] theorem State.setCond_setCond (v w : BitVec 3) : (s.setCond v).setCond w = s.setCond w := rfl
@[simp] theorem State.setCond_same : s.setCond s.cond = s := rfl

/-! ### `setRun` -/

@[simp] theorem State.setRun_regs (v : RunState) : (s.setRun v).regs = s.regs := rfl
@[simp] theorem State.setRun_pc (v : RunState) : (s.setRun v).pc = s.pc := rfl
@[simp] theorem State.setRun_cond (v : RunState) : (s.setRun v).cond = s.cond := rfl
@[simp] theorem State.setRun_run (v : RunState) : (s.setRun v).run = v := rfl
@[simp] theorem State.setRun_mem (v : RunState) : (s.setRun v).mem = s.mem := rfl
@[simp] theorem State.setRun_kbq (v : RunState) : (s.setRun v).kbq = s.kbq := rfl
@[simp] theorem State.setRun_kbInput (v : RunState) : (s.setRun v).kbInput = s.kbInput := rfl
@[simp] theorem State.setRun_cfg (v : RunState) : (s.setRun v).cfg = s.cfg := rfl
@[simp] theorem State.setRun_readReg (v : RunState) (r : Reg) : (s.setRun v).readReg r = s.readReg r := rfl
@[simp] theorem State.setRun_cell (v : RunState) (a : Addr) : (s.setRun v).cell a = s.cell a := rfl
@[simp] theorem State.setRun_setRun (v w : RunState) : (s.setRun v).setRun w = s.setRun w := rfl
@[simp] theorem State.setRun_same : s.setRun s.run = s := rfl

/-! ### `setMem` -/

@[simp] theorem State.setMem_regs (v : Memory) : (s.setMem v).regs = s.regs := rfl
@[simp] theorem State.setMem_pc (v : Memory) : (s.setMem v).pc = s.pc := rfl
@[simp] theorem State.setMem_cond (v : Memory) : (s.setMem v).cond = s.cond := rfl
@[simp] theorem State.setMem_run (v : Memory) : (s.setMem v).run = s.run := rfl
@[simp] theorem State.setMem_mem (v : Memory) : (s.setMem v).mem = v := rfl
@[simp] theorem State.setMem_kbq (v : Memory) : (s.setMem v).kbq = s.kbq := rfl
@[simp] theorem State.setMem_kbInput (v : Memory) : (s.setMem v).kbInput = s.kbInput := rfl
@[simp] theorem State.setMem_cfg (v : Memory) : (s.setMem v).cfg = s.cfg := rfl
@[simp] theorem State.setMem_readReg (v : Memory) (r : Reg) : (s.setMem v).readReg r = s.readReg r := rfl
@[simp] theorem State.setMem_cell (v : Memory) (a : Addr) : (s.setMem v).cell a = v.read a := rfl
@[simp] theorem State.setMem_setMem (v w : Memory) : (s.setMem v).setMem w = s.setMem w := rfl
@[simp] theorem State.setMem_same : s.setMem s.mem = s := rfl

/-! ### `setKbq` -/

@[simp] theorem State.setKbq_regs (v : List Byte) : (s.setKbq v).regs = s.regs := rfl
@[simp] theorem State.setKbq_pc (v : List Byte) : (s.setKbq v).pc = s.pc := rfl
@[simp] theorem State.setKbq_cond (v : List Byte) : (s.setKbq v).cond = s.cond := rfl
@[simp] theorem State.setKbq_run (v : List Byte) : (s.setKbq v).run = s.run := rfl
@[simp] theorem State.setKbq_mem (v : List Byte) : (s.setKbq v).mem = s.mem := rfl
@[simp] theorem State.setKbq_kbq (v : List Byte) : (s.setKbq v).kbq = v := rfl
@[simp] theorem State.setKbq_kbInput (v : List Byte) : (s.setKbq v).kbInput = s.kbInput := rfl
@[simp] theorem State.setKbq_cfg (v : List Byte) : (s.setKbq v).cfg = s.cfg := rfl
@[simp] theorem State.setKbq_readReg (v : List Byte) (r : Reg) : (s.setKbq v).readReg r = s.readReg r := rfl
@[simp] theorem State.setKbq_cell (v : List Byte) (a : Addr) : (s.setKbq v).cell a = s.cell a := rfl
@[simp] theorem State.setKbq_setKbq (v w : List Byte) : (s.setKbq v).setKbq w = s.setKbq w := rfl
@[simp] theorem State.setKbq_same : s.setKbq s.kbq = s := rfl

/-! ### `setKbInput` -/

@[simp] theorem State.setKbInput_regs (v : KbInput) : (s.setKbInput v).regs = s.regs := rfl
@[simp] theorem State.setKbInput_pc (v : KbInput) : (s.setKbInput v).pc = s.pc := rfl
@[simp] theorem State.setKbInput_cond (v : KbInput) : (s.setKbInput v).cond = s.cond := rfl
@[simp] theorem State.setKbInput_run (v : KbInput) : (s.setKbInput v).run = s.run := rfl
@[simp] theorem State.setKbInput_mem (v : KbInput) : (s.setKbInput v).mem = s.mem := rfl
@[simp] theorem State.setKbInput_kbq (v : KbInput) : (s.setKbInput v).kbq = s.kbq := rfl
@[simp] theorem State.setKbInput_kbInput (v : KbInput) : (s.setKbInput v).kbInput = v := rfl
@[simp] theorem State.setKbInput_cfg (v : KbInput) : (s.setKbInput v).cfg = s.cfg := rfl
@[simp] theorem State.setKbInput_readReg (v : KbInput) (r : Reg) : (s.setKbInput v).readReg r = s.readReg r := rfl
@[simp] theorem State.setKbInput_cell (v : KbInput) (a : Addr) : (s.setKbInput v).cell a = s.cell a := rfl
@[simp] theorem State.setKbInput_setKbInput (v w : KbInput) : (s.setKbInput v).setKbInput w = s.setKbInput w := rfl
@[simp] theorem State.setKbInput_same : s.setKbInput s.kbInput = s := rfl

/-! ### A register write and a cell write touch one field each -/

@[simp] theorem State.writeReg_pc (r : Reg) (v : Word) : (s.writeReg r v).pc = s.pc := rfl
@[simp] theorem State.writeReg_cond (r : Reg) (v : Word) : (s.writeReg r v).cond = s.cond := rfl
@[simp] theorem State.writeReg_run (r : Reg) (v : Word) : (s.writeReg r v).run = s.run := rfl
@[simp] theorem State.writeReg_mem (r : Reg) (v : Word) : (s.writeReg r v).mem = s.mem := rfl
@[simp] theorem State.writeReg_kbq (r : Reg) (v : Word) : (s.writeReg r v).kbq = s.kbq := rfl
@[simp] theorem State.writeReg_kbInput (r : Reg) (v : Word) : (s.writeReg r v).kbInput = s.kbInput := rfl
@[simp] theorem State.writeReg_cfg (r : Reg) (v : Word) : (s.writeReg r v).cfg = s.cfg := rfl
@[simp] theorem State.setCell_regs (a : Addr) (v : Word) : (s.setCell a v).regs = s.regs := rfl
@[simp] theorem State.setCell_pc (a : Addr) (v : Word) : (s.setCell a v).pc = s.pc := rfl
@[simp] theorem State.setCell_cond (a : Addr) (v : Word) : (s.setCell a v).cond = s.cond := rfl
@[simp] theorem State.setCell_run (a : Addr) (v : Word) : (s.setCell a v).run = s.run := rfl
@[simp] theorem State.setCell_kbq (a : Addr) (v : Word) : (s.setCell a v).kbq = s.kbq := rfl
@[simp] theorem State.setCell_kbInput (a : Addr) (v : Word) : (s.setCell a v).kbInput = s.kbInput := rfl
@[simp] theorem State.setCell_cfg (a : Addr) (v : Word) : (s.setCell a v).cfg = s.cfg := rfl
@[simp] theorem State.writeReg_cell (r : Reg) (v : Word) (b : Addr) : (s.writeReg r v).cell b = s.cell b := rfl
@[simp] theorem State.setCell_readReg (a : Addr) (v : Word) (r : Reg) : (s.setCell a v).readReg r = s.readReg r := rfl

/-! ### The launch state -/

theorem State.launch_pc (cfg : Config) (gpr : RegFile) (cond : BitVec 3) (image : Memory) (q : List Byte) (k : KbInput) :
    (State.launch cfg gpr cond image q k).pc = cfg.pcStart := rfl
theorem State.launch_run (cfg : Config) (gpr : RegFile) (cond : BitVec 3) (image : Memory) (q : List Byte) (k : KbInput) :
    (State.launch cfg gpr cond image q k).run = .running := rfl

end Sys2Proof.Machine
end

