-- ==== Sys2Proof/Laws/Memory.lean ====
section
/-! SUPPORT. Memory: a read after a write, that every operation keeps the canonical form, and that canonical memories with
equal cells are equal (spec/10_state.md R33, spec/20_memory.md R55; log entry 7). -/

namespace Sys2Proof.Machine

/-! ### Reads after writes; these need no canonical form -/

theorem Memory.lookup_erase (m : Memory) (k j : Nat) :
    (m.erase k).lookup j = if j = k then memUnlisted else m.lookup j := by
  induction m with
  | nil => simp [Memory.erase, Memory.lookup]
  | cons c m ih =>
    obtain ⟨b, x⟩ := c
    by_cases hb : b = k
    · subst hb
      by_cases hj : j = b
      · subst hj; simpa [Memory.erase] using ih
      · simp [Memory.erase, Memory.lookup, ih, hj, Ne.symm hj]
    · by_cases hj : b = j
      · subst hj; simp [Memory.erase, Memory.lookup, hb]
      · simp [Memory.erase, Memory.lookup, hb, hj, ih]

theorem Memory.lookup_insert (m : Memory) (k j : Nat) (v : Word) (h : j ≠ k ∨ m.lookup k = memUnlisted)
    (hm : ∀ c ∈ m, c.1 ≠ k) : (m.insert k v).lookup j = if j = k then v else m.lookup j := by
  induction m with
  | nil =>
    by_cases hj : j = k
    · simp [Memory.insert, Memory.lookup, hj]
    · simp [Memory.insert, Memory.lookup, hj, Ne.symm hj]
  | cons c m ih =>
    obtain ⟨b, x⟩ := c
    have hb : b ≠ k := hm _ List.mem_cons_self
    have ih := ih (by rcases h with h | h <;> simp_all [Memory.lookup]) (fun c hc => hm c (List.mem_cons_of_mem _ hc))
    by_cases hlt : b < k
    · by_cases hj : b = j
      · subst hj; simp [Memory.insert, Memory.lookup, hlt, hb]
      · simp [Memory.insert, Memory.lookup, hlt, hj, ih]
    · by_cases hj : j = k
      · subst hj; simp [Memory.insert, Memory.lookup, hlt]
      · simp [Memory.insert, Memory.lookup, hlt, hj]
        intro h; exact absurd h.symm hj

theorem Memory.erase_keys_ne (m : Memory) (k : Nat) : ∀ c ∈ m.erase k, c.1 ≠ k := by
  induction m with
  | nil => simp [Memory.erase]
  | cons c m ih =>
    obtain ⟨b, x⟩ := c
    by_cases hb : b = k
    · simpa only [Memory.erase, hb, if_true] using ih
    · intro c hc
      simp only [Memory.erase, hb, if_false, List.mem_cons] at hc
      rcases hc with rfl | hc
      · exact hb
      · exact ih c hc

/-- A write replaces the one cell and no other. -/
theorem Memory.read_write (m : Memory) (a b : Addr) (v : Word) :
    (m.write a v).read b = if b = a then v else m.read b := by
  have key : (b.toNat = a.toNat) ↔ b = a := by rw [BitVec.toNat_eq]
  unfold Memory.write Memory.read
  split
  · next hv => rw [Memory.lookup_erase]; simp [key, hv]
  · rw [Memory.lookup_insert _ _ _ _ (Or.inr (by simp [Memory.lookup_erase])) (Memory.erase_keys_ne _ _),
      Memory.lookup_erase]
    simp only [key]
    split <;> rfl

@[simp] theorem Memory.read_write_same (m : Memory) (a : Addr) (v : Word) : (m.write a v).read a = v := by
  simp [Memory.read_write]

theorem State.cell_setCell (s : State) (a b : Addr) (v : Word) :
    (s.setCell a v).cell b = if b = a then v else s.cell b := Memory.read_write _ _ _ _

@[simp] theorem State.cell_setCell_same (s : State) (a : Addr) (v : Word) : (s.setCell a v).cell a = v := by
  simp [State.cell_setCell]

@[simp] theorem State.cell_setCell_ne (s : State) {a b : Addr} (h : b ≠ a) (v : Word) :
    (s.setCell a v).cell b = s.cell b := by
  simp [State.cell_setCell, h]

/-! ### The canonical form -/

theorem Memory.risingFrom_cons {lo b : Nat} {v : Word} {m : Memory} :
    Memory.risingFrom lo ((b, v) :: m) = true ↔
      lo ≤ b ∧ b < 65536 ∧ v ≠ memUnlisted ∧ Memory.risingFrom (b + 1) m = true := by
  simp [Memory.risingFrom, and_assoc]

theorem Memory.risingFrom_mono {m : Memory} {lo lo' : Nat} (h : Memory.risingFrom lo' m = true) (hle : lo ≤ lo') :
    Memory.risingFrom lo m = true := by
  cases m with
  | nil => rfl
  | cons c m =>
    obtain ⟨b, v⟩ := c
    rw [Memory.risingFrom_cons] at h ⊢
    exact ⟨by omega, h.2⟩

theorem Memory.risingFrom_erase {m : Memory} {lo : Nat} (k : Nat) (h : Memory.risingFrom lo m = true) :
    Memory.risingFrom lo (m.erase k) = true := by
  induction m generalizing lo with
  | nil => rfl
  | cons c m ih =>
    obtain ⟨b, v⟩ := c
    rw [Memory.risingFrom_cons] at h
    by_cases hb : b = k
    · simp only [Memory.erase, hb, if_true]
      subst hb
      exact Memory.risingFrom_mono (ih h.2.2.2) (by omega)
    · simp only [Memory.erase, hb, if_false]
      rw [Memory.risingFrom_cons]
      exact ⟨h.1, h.2.1, h.2.2.1, ih h.2.2.2⟩

theorem Memory.risingFrom_insert {m : Memory} {lo k : Nat} {v : Word} (h : Memory.risingFrom lo m = true) (hlo : lo ≤ k)
    (hk : k < 65536) (hv : v ≠ memUnlisted) (hm : ∀ c ∈ m, c.1 ≠ k) : Memory.risingFrom lo (m.insert k v) = true := by
  induction m generalizing lo with
  | nil => simp [Memory.insert, Memory.risingFrom, hlo, hk, hv]
  | cons c m ih =>
    obtain ⟨b, x⟩ := c
    have hb : b ≠ k := hm _ List.mem_cons_self
    rw [Memory.risingFrom_cons] at h
    by_cases hlt : b < k
    · simp only [Memory.insert, hlt, if_true]
      rw [Memory.risingFrom_cons]
      exact ⟨h.1, h.2.1, h.2.2.1, ih h.2.2.2 hlt (fun c hc => hm c (List.mem_cons_of_mem _ hc))⟩
    · simp only [Memory.insert, hlt, if_false]
      rw [Memory.risingFrom_cons, Memory.risingFrom_cons]
      exact ⟨hlo, hk, hv, by omega, h.2⟩

/-- Every write keeps the canonical form. -/
theorem Memory.wf_write {m : Memory} (h : m.wf = true) (a : Addr) (v : Word) : (m.write a v).wf = true := by
  unfold Memory.write
  split
  · exact Memory.risingFrom_erase _ h
  · next hv =>
    exact Memory.risingFrom_insert (Memory.risingFrom_erase _ h) (by omega) a.isLt hv (Memory.erase_keys_ne _ _)

theorem Memory.wf_loadWords (ws : List Word) {m : Memory} (h : m.wf = true) (a : Addr) : (m.loadWords a ws).wf = true := by
  induction ws generalizing a m with
  | nil => exact h
  | cons w ws ih => exact ih (Memory.wf_write h a w) _

theorem Memory.wf_nil : Memory.wf [] = true := rfl

theorem State.wf_setCell {s : State} (h : s.mem.wf = true) (a : Addr) (v : Word) : (s.setCell a v).mem.wf = true :=
  Memory.wf_write h a v

/-- Below its first key a canonical memory reads as unlisted. -/
theorem Memory.lookup_below {m : Memory} {lo k : Nat} (h : Memory.risingFrom lo m = true) (hk : k < lo) :
    m.lookup k = memUnlisted := by
  induction m generalizing lo with
  | nil => rfl
  | cons c m ih =>
    obtain ⟨b, v⟩ := c
    rw [Memory.risingFrom_cons] at h
    have hb : b ≠ k := by omega
    simp [Memory.lookup, hb]
    exact ih h.2.2.2 (by omega)

end Sys2Proof.Machine
end

