-- ==== Sys2Proof/Laws/Registers.lean ====
section
/-! SUPPORT. The register file: what a read gives after a write (spec/10_state.md R20). -/

namespace Sys2Proof.Machine

theorem RegFile.get_set (f : RegFile) (r r' : Reg) (v : Word) : (f.set r v).get r' = if r' = r then v else f.get r' := by
  cases r <;> cases r' <;> rfl

theorem RegFile.set_set (f : RegFile) (r : Reg) (v w : Word) : (f.set r v).set r w = f.set r w := by
  cases r <;> rfl

theorem RegFile.set_comm (f : RegFile) {r r' : Reg} (h : r ≠ r') (v w : Word) :
    (f.set r v).set r' w = (f.set r' w).set r v := by
  cases r <;> cases r' <;> first | rfl | exact absurd rfl h

/-- A file is known by its eight values. -/
theorem RegFile.eq_of_get {f g : RegFile} (h : ∀ r, f.get r = g.get r) : f = g := by
  cases f; cases g
  have h0 := h .r0; have h1 := h .r1; have h2 := h .r2; have h3 := h .r3
  have h4 := h .r4; have h5 := h .r5; have h6 := h .r6; have h7 := h .r7
  simp_all [RegFile.get]

variable (s : State)

theorem State.readReg_writeReg (r r' : Reg) (v : Word) :
    (s.writeReg r v).readReg r' = if r' = r then v else s.readReg r' := RegFile.get_set _ _ _ _

@[simp] theorem State.readReg_writeReg_same (r : Reg) (v : Word) : (s.writeReg r v).readReg r = v := by
  simp [State.readReg_writeReg]

@[simp] theorem State.readReg_writeReg_ne {r r' : Reg} (h : r' ≠ r) (v : Word) :
    (s.writeReg r v).readReg r' = s.readReg r' := by
  simp [State.readReg_writeReg, h]

theorem State.writeReg_writeReg (r : Reg) (v w : Word) : (s.writeReg r v).writeReg r w = s.writeReg r w := by
  simp [State.writeReg, RegFile.set_set]

theorem State.writeReg_comm {r r' : Reg} (h : r ≠ r') (v w : Word) :
    (s.writeReg r v).writeReg r' w = (s.writeReg r' w).writeReg r v := by
  simp [State.writeReg, RegFile.set_comm _ h]

end Sys2Proof.Machine
end

