-- ==== Sys2Proof/Laws/Bus.lean ====
section
/-! SUPPORT. What the keyboard poll and the bus primitives do, said once for each (spec/20_memory.md R52 to R56). -/

namespace Sys2Proof.Machine

variable (s : State)

@[simp] theorem kbArrive_regs : (kbArrive s).regs = s.regs := rfl
@[simp] theorem kbArrive_pc : (kbArrive s).pc = s.pc := rfl
@[simp] theorem kbArrive_cond : (kbArrive s).cond = s.cond := rfl
@[simp] theorem kbArrive_run : (kbArrive s).run = s.run := rfl
@[simp] theorem kbArrive_mem : (kbArrive s).mem = s.mem := rfl
@[simp] theorem kbArrive_cfg : (kbArrive s).cfg = s.cfg := rfl
@[simp] theorem kbArrive_kbq : (kbArrive s).kbq = s.kbq ++ s.kbInput.next.1 := rfl
@[simp] theorem kbArrive_kbInput : (kbArrive s).kbInput = s.kbInput.next.2 := rfl

/-- A poll is one of two things (R53): no character, and the status cell is cleared; or the oldest character is taken. -/
theorem pollKeyboard_cases :
    ((kbArrive s).kbq = [] ∧ pollKeyboard s = (kbArrive s).setCell s.cfg.kbsrAddr 0x0000#16) ∨
    (∃ c rest, (kbArrive s).kbq = c :: rest ∧
      pollKeyboard s = (((kbArrive s).setKbq rest).setCell s.cfg.kbsrAddr 0x8000#16).setCell s.cfg.kbdrAddr (zext c)) := by
  unfold pollKeyboard kbTake
  cases h : (kbArrive s).kbq with
  | nil => exact .inl ⟨rfl, rfl⟩
  | cons c rest => exact .inr ⟨c, rest, rfl, rfl⟩

@[simp] theorem pollKeyboard_regs : (pollKeyboard s).regs = s.regs := by
  obtain ⟨-, h⟩ | ⟨c, rest, -, h⟩ := pollKeyboard_cases s <;> simp [h]
@[simp] theorem pollKeyboard_pc : (pollKeyboard s).pc = s.pc := by
  obtain ⟨-, h⟩ | ⟨c, rest, -, h⟩ := pollKeyboard_cases s <;> simp [h]
@[simp] theorem pollKeyboard_cond : (pollKeyboard s).cond = s.cond := by
  obtain ⟨-, h⟩ | ⟨c, rest, -, h⟩ := pollKeyboard_cases s <;> simp [h]
@[simp] theorem pollKeyboard_run : (pollKeyboard s).run = s.run := by
  obtain ⟨-, h⟩ | ⟨c, rest, -, h⟩ := pollKeyboard_cases s <;> simp [h]
@[simp] theorem pollKeyboard_cfg : (pollKeyboard s).cfg = s.cfg := by
  obtain ⟨-, h⟩ | ⟨c, rest, -, h⟩ := pollKeyboard_cases s <;> simp [h]
@[simp] theorem pollKeyboard_kbInput : (pollKeyboard s).kbInput = s.kbInput.next.2 := by
  obtain ⟨-, h⟩ | ⟨c, rest, -, h⟩ := pollKeyboard_cases s <;> simp [h]

/-- A poll touches no cell but the two keyboard cells. -/
theorem pollKeyboard_cell {a : Addr} (h1 : a ≠ s.cfg.kbsrAddr) (h2 : a ≠ s.cfg.kbdrAddr) :
    (pollKeyboard s).cell a = s.cell a := by
  obtain ⟨-, h⟩ | ⟨c, rest, -, h⟩ := pollKeyboard_cases s <;> simp [h, h1, h2] <;> rfl

theorem pollKeyboard_wf (h : s.mem.wf = true) : (pollKeyboard s).mem.wf = true := by
  obtain ⟨-, hp⟩ | ⟨c, rest, -, hp⟩ := pollKeyboard_cases s <;> rw [hp]
  · exact State.wf_setCell (by simpa using h) _ _
  · exact State.wf_setCell (State.wf_setCell (by simpa using h) _ _) _ _

/-- A read of any address but `KBSR_ADDR` changes nothing (R52). -/
@[simp] theorem readEffect_of_ne {a : Addr} (h : a ≠ s.cfg.kbsrAddr) : readEffect a s = s := by
  simp [readEffect, h]

/-- A read of `KBSR_ADDR` polls (R52). -/
@[simp] theorem readEffect_status : readEffect s.cfg.kbsrAddr s = pollKeyboard s := by
  simp [readEffect]

theorem readEffect_cases (a : Addr) :
    (a ≠ s.cfg.kbsrAddr ∧ readEffect a s = s) ∨ (a = s.cfg.kbsrAddr ∧ readEffect a s = pollKeyboard s) := by
  by_cases h : a = s.cfg.kbsrAddr <;> simp [readEffect, h]

@[simp] theorem memRead_snd (a : Addr) : (memRead a s).2 = readEffect a s := rfl
theorem memRead_fst (a : Addr) : (memRead a s).1 = (readEffect a s).cell a := rfl

@[simp] theorem readEffect_regs (a : Addr) : (readEffect a s).regs = s.regs := by
  obtain ⟨-, h⟩ | ⟨-, h⟩ := readEffect_cases s a <;> simp [h]
@[simp] theorem readEffect_readReg (a : Addr) (r : Reg) : (readEffect a s).readReg r = s.readReg r := by
  simp [State.readReg]
@[simp] theorem readEffect_pc (a : Addr) : (readEffect a s).pc = s.pc := by
  obtain ⟨-, h⟩ | ⟨-, h⟩ := readEffect_cases s a <;> simp [h]
@[simp] theorem readEffect_cond (a : Addr) : (readEffect a s).cond = s.cond := by
  obtain ⟨-, h⟩ | ⟨-, h⟩ := readEffect_cases s a <;> simp [h]
@[simp] theorem readEffect_run (a : Addr) : (readEffect a s).run = s.run := by
  obtain ⟨-, h⟩ | ⟨-, h⟩ := readEffect_cases s a <;> simp [h]
@[simp] theorem readEffect_cfg (a : Addr) : (readEffect a s).cfg = s.cfg := by
  obtain ⟨-, h⟩ | ⟨-, h⟩ := readEffect_cases s a <;> simp [h]

/-- A bus read touches no cell but the two keyboard cells. -/
theorem readEffect_cell (a : Addr) {b : Addr} (h1 : b ≠ s.cfg.kbsrAddr) (h2 : b ≠ s.cfg.kbdrAddr) :
    (readEffect a s).cell b = s.cell b := by
  obtain ⟨-, h⟩ | ⟨-, h⟩ := readEffect_cases s a <;> simp [h, pollKeyboard_cell s h1 h2]

theorem readEffect_wf (a : Addr) (h : s.mem.wf = true) : (readEffect a s).mem.wf = true := by
  obtain ⟨-, hr⟩ | ⟨-, hr⟩ := readEffect_cases s a <;> rw [hr]
  · exact h
  · exact pollKeyboard_wf s h

/-! Polls and reads look at memory, keyboard and parameters only: a change of registers, PC, COND or RUN passes through. -/

theorem pollKeyboard_setPC (p : Addr) : pollKeyboard (s.setPC p) = (pollKeyboard s).setPC p := by
  unfold pollKeyboard kbTake
  cases h : (kbArrive s).kbq with
  | nil => rw [show (kbArrive (s.setPC p)).kbq = [] from h]; rfl
  | cons x rest => rw [show (kbArrive (s.setPC p)).kbq = x :: rest from h]; rfl

theorem readEffect_setPC (a : Addr) (p : Addr) : readEffect a (s.setPC p) = (readEffect a s).setPC p := by
  by_cases h : a = s.cfg.kbsrAddr <;> simp [readEffect, h, pollKeyboard_setPC]

theorem pollKeyboard_setCond (c : BitVec 3) : pollKeyboard (s.setCond c) = (pollKeyboard s).setCond c := by
  unfold pollKeyboard kbTake
  cases h : (kbArrive s).kbq with
  | nil => rw [show (kbArrive (s.setCond c)).kbq = [] from h]; rfl
  | cons x rest => rw [show (kbArrive (s.setCond c)).kbq = x :: rest from h]; rfl

theorem readEffect_setCond (a : Addr) (c : BitVec 3) : readEffect a (s.setCond c) = (readEffect a s).setCond c := by
  by_cases h : a = s.cfg.kbsrAddr <;> simp [readEffect, h, pollKeyboard_setCond]

theorem pollKeyboard_setRun (r : RunState) : pollKeyboard (s.setRun r) = (pollKeyboard s).setRun r := by
  unfold pollKeyboard kbTake
  cases h : (kbArrive s).kbq with
  | nil => rw [show (kbArrive (s.setRun r)).kbq = [] from h]; rfl
  | cons x rest => rw [show (kbArrive (s.setRun r)).kbq = x :: rest from h]; rfl

theorem readEffect_setRun (a : Addr) (r : RunState) : readEffect a (s.setRun r) = (readEffect a s).setRun r := by
  by_cases h : a = s.cfg.kbsrAddr <;> simp [readEffect, h, pollKeyboard_setRun]

theorem pollKeyboard_writeReg (r : Reg) (v : Word) : pollKeyboard (s.writeReg r v) = (pollKeyboard s).writeReg r v := by
  unfold pollKeyboard kbTake
  cases h : (kbArrive s).kbq with
  | nil => rw [show (kbArrive (s.writeReg r v)).kbq = [] from h]; rfl
  | cons x rest => rw [show (kbArrive (s.writeReg r v)).kbq = x :: rest from h]; rfl

theorem readEffect_writeReg (a : Addr) (r : Reg) (v : Word) : readEffect a (s.writeReg r v) = (readEffect a s).writeReg r v := by
  by_cases h : a = s.cfg.kbsrAddr <;> simp [readEffect, h, pollKeyboard_writeReg]

/-- What the fetch gives and leaves (spec/10_state.md R32). -/
theorem fetch_eq : fetch s = ((readEffect s.pc s).cell s.pc, (readEffect s.pc s).setPC (s.pc + 1#16)) := rfl

theorem fetch_of_ne (h : s.pc ≠ s.cfg.kbsrAddr) : fetch s = (s.cell s.pc, s.setPC (s.pc + 1#16)) := by
  simp [fetch_eq, h]

/-- The word a fetch from the status address yields: a no-op's (spec/20_memory.md R56). -/
theorem fetch_status_word (h : s.pc = s.cfg.kbsrAddr) : (fetch s).1 = (pollKeyboard s).cell s.cfg.kbsrAddr := by
  simp [fetch_eq, readEffect, h]

/-- A write does one thing (R55). -/
theorem memWrite_eq (a : Addr) (v : Word) : memWrite a v s = s.setCell a v := rfl

/-! ### Link, trap entry, jump -/

@[simp] theorem linkReturn_readReg (r : Reg) : (linkReturn s).readReg r = if r = .r7 then s.pc else s.readReg r :=
  State.readReg_writeReg _ _ _ _
@[simp] theorem linkReturn_pc : (linkReturn s).pc = s.pc := rfl
@[simp] theorem linkReturn_cond : (linkReturn s).cond = s.cond := rfl
@[simp] theorem linkReturn_run : (linkReturn s).run = s.run := rfl
@[simp] theorem linkReturn_mem : (linkReturn s).mem = s.mem := rfl
@[simp] theorem linkReturn_kbq : (linkReturn s).kbq = s.kbq := rfl
@[simp] theorem linkReturn_kbInput : (linkReturn s).kbInput = s.kbInput := rfl
@[simp] theorem linkReturn_cfg : (linkReturn s).cfg = s.cfg := rfl
@[simp] theorem linkReturn_cell (a : Addr) : (linkReturn s).cell a = s.cell a := rfl

/-- Trap entry is one of two things (spec/42_control.md R137): the halt, or the jump through the table. -/
theorem trapEnter_cases (vector : BitVec 8) :
    (vector = s.cfg.haltVector ∧ trapEnter vector s = (linkReturn s).setRun .halted) ∨
    (vector ≠ s.cfg.haltVector ∧ trapEnter vector s =
      ((linkReturn (readEffect (trapSlot vector s) s))).setPC ((readEffect (trapSlot vector s) s).cell (trapSlot vector s))) := by
  by_cases h : vector = s.cfg.haltVector
  · exact .inl ⟨h, by simp [trapEnter, h]⟩
  · refine .inr ⟨h, ?_⟩
    simp only [trapEnter, h, if_false, memRead_snd, memRead_fst]
    simp only [linkReturn, readEffect_writeReg, State.writeReg_cell, readEffect_pc]

end Sys2Proof.Machine
end

