-- ==== Sys2Proof/Laws/Encoding.lean ====
section
/-! SUPPORT. The two tables of the encoding are one-to-one (spec/30_encoding.md R83, R89), and a field comes back from the bits
it was placed at and leaves the others zero (R82). -/

namespace Sys2Proof

@[simp] theorem Opcode.ofNumber_number (o : Opcode) : Opcode.ofNumber o.number = o := by
  cases o <;> rfl

@[simp] theorem Opcode.number_ofNumber : ∀ b : BitVec 4, (Opcode.ofNumber b).number = b := by
  decide

@[simp] theorem Reg.ofBits_bits (r : Reg) : Reg.ofBits r.bits = r := by
  cases r <;> rfl

@[simp] theorem Reg.bits_ofBits : ∀ b : BitVec 3, (Reg.ofBits b).bits = b := by
  decide

theorem Reg.bits_injective {r r' : Reg} (h : r.bits = r'.bits) : r = r' := by
  simpa using congrArg Reg.ofBits h

theorem Opcode.number_injective {o o' : Opcode} (h : o.number = o'.number) : o = o' := by
  simpa using congrArg Opcode.ofNumber h

/-- Bit `k` of a placed field. -/
theorem getLsbD_place {n : Nat} (lo k : Nat) (v : BitVec n) :
    (place lo v).getLsbD k = (decide (k < 16) && decide (lo ≤ k) && v.getLsbD (k - lo)) := by
  simp only [place, BitVec.getLsbD_shiftLeft, BitVec.getLsbD_setWidth]
  by_cases h1 : k < 16
  · by_cases h2 : lo ≤ k
    · simp [h1, h2, show k - lo < 16 by omega]
    · simp [h2, show k < lo by omega]
  · simp [h1]

/-- A placed field is read back where it was placed. -/
theorem extract_place_same {n : Nat} (lo : Nat) (v : BitVec n) (h : lo + n ≤ 16) : (place lo v).extractLsb' lo n = v := by
  apply BitVec.eq_of_getLsbD_eq
  intro k hk
  rw [BitVec.getLsbD_extractLsb', getLsbD_place]
  simp [hk, show lo + k < 16 by omega]

/-- A placed field reads as zero at bits it does not cover. -/
theorem extract_place_apart {m : Nat} (lo lo' n : Nat) (v : BitVec m) (h : lo' + n ≤ lo ∨ lo + m ≤ lo') :
    (place lo v).extractLsb' lo' n = 0#n := by
  apply BitVec.eq_of_getLsbD_eq
  intro k hk
  rw [BitVec.getLsbD_extractLsb', getLsbD_place]
  rcases h with h | h
  · simp [show ¬ lo ≤ lo' + k by omega]
  · simp [BitVec.getLsbD_of_ge v (lo' + k - lo) (by omega)]

theorem extract_or (x y : Word) (lo n : Nat) :
    (x ||| y).extractLsb' lo n = x.extractLsb' lo n ||| y.extractLsb' lo n := by
  apply BitVec.eq_of_getLsbD_eq
  intro k hk
  simp [hk]

end Sys2Proof
end

