-- ==== Sys2Proof/Laws/Results.lean ====
section
/-! SUPPORT. What `setcc` and `writeResult` do to each field (spec/00_scope.md R13, spec/10_state.md R29), and the frames of the
shared operations in the terms of Safety.lean. -/

namespace Sys2Proof.Machine

variable (s : State)

@[simp] theorem writeResult_readReg (dr r : Reg) (v : Word) :
    (writeResult dr v s).readReg r = if r = dr then v else s.readReg r := State.readReg_writeReg _ _ _ _
@[simp] theorem writeResult_pc (dr : Reg) (v : Word) : (writeResult dr v s).pc = s.pc := rfl
@[simp] theorem writeResult_cond (dr : Reg) (v : Word) : (writeResult dr v s).cond = condOf v := rfl
@[simp] theorem writeResult_run (dr : Reg) (v : Word) : (writeResult dr v s).run = s.run := rfl
@[simp] theorem writeResult_mem (dr : Reg) (v : Word) : (writeResult dr v s).mem = s.mem := rfl
@[simp] theorem writeResult_cell (dr : Reg) (v : Word) (a : Addr) : (writeResult dr v s).cell a = s.cell a := rfl
@[simp] theorem writeResult_kbq (dr : Reg) (v : Word) : (writeResult dr v s).kbq = s.kbq := rfl
@[simp] theorem writeResult_kbInput (dr : Reg) (v : Word) : (writeResult dr v s).kbInput = s.kbInput := rfl
@[simp] theorem writeResult_cfg (dr : Reg) (v : Word) : (writeResult dr v s).cfg = s.cfg := rfl

/-- `condOf` gives the flag R13 describes, and no other. -/
theorem flagsDescribe_iff (v : Word) (c : BitVec 3) : FlagsDescribe v c ↔ c = condOf v := by
  have hz := v.isLt
  have hi := BitVec.toInt_eq_msb_cond v
  have h0 : v.toNat = 0 ↔ v = 0#16 := by rw [BitVec.toNat_eq]; simp
  rw [BitVec.msb_eq_getLsbD_last] at hi
  unfold FlagsDescribe
  obtain ⟨h, hc⟩ | ⟨h, hs, hc⟩ | ⟨h, hs, hc⟩ := condOf_cases v <;> rw [hc, h0]
  · subst h
    simp [condZ, condN, condP]
    intro h; subst h; decide
  · simp only [hs] at hi
    have hneg : v.toInt < 0 := by simp at hi; omega
    constructor
    · exact fun ⟨_, h2, _⟩ => h2.2 hneg
    · rintro rfl
      exact ⟨iff_of_false (by decide) h, iff_of_true rfl hneg, iff_of_false (by decide) (by omega)⟩
  · simp only [hs] at hi
    have hne : v.toNat ≠ 0 := fun e => h (h0.1 e)
    have hpos : 0 < v.toInt := by simp at hi; omega
    constructor
    · exact fun ⟨_, _, h3⟩ => h3.2 hpos
    · rintro rfl
      exact ⟨iff_of_false (by decide) h, iff_of_false (by decide) (by omega), iff_of_true rfl hpos⟩

theorem condOneHot_condOf (v : Word) : CondOneHot (condOf v) := by
  obtain ⟨-, h⟩ | ⟨-, -, h⟩ | ⟨-, -, h⟩ := condOf_cases v <;> simp [h, CondOneHot, condZ, condN, condP]

/-- A bus read keeps registers. -/
theorem keepsRegs_readEffect (a : Addr) : KeepsRegs [] s (readEffect a s) := fun r _ => readEffect_readReg s a r

/-- A bus read keeps every cell but the keyboard's two. -/
theorem keepsCells_readEffect (a : Addr) : KeepsCells [s.cfg.kbsrAddr, s.cfg.kbdrAddr] s (readEffect a s) := fun b hb => by
  simp only [List.mem_cons, List.not_mem_nil, or_false, not_or] at hb
  exact readEffect_cell s a hb.1 hb.2

theorem keepsRegs_writeResult (dr : Reg) (v : Word) : KeepsRegs [dr] s (writeResult dr v s) := fun r hr => by
  simp only [List.mem_cons, List.not_mem_nil, or_false] at hr
  simp [hr]

theorem keepsRegs_linkReturn : KeepsRegs [.r7] s (linkReturn s) := fun r hr => by
  simp only [List.mem_cons, List.not_mem_nil, or_false] at hr
  simp [hr]

theorem sameMemoryAndKeyboard_writeResult (dr : Reg) (v : Word) : SameMemoryAndKeyboard s (writeResult dr v s) :=
  ⟨fun _ _ => rfl, rfl, rfl⟩

theorem keepsCells_memWrite (a : Addr) (v : Word) : KeepsCells [a] s (memWrite a v s) := fun b hb => by
  simp only [List.mem_cons, List.not_mem_nil, or_false] at hb
  simp [memWrite, hb]

end Sys2Proof.Machine
end

