-- ==== Sys2Proof/Laws/Exec.lean ====
section
/-! SUPPORT. Said once: the five shapes in which an instruction can end, and when a step answers a next state. Statements
about all instructions follow from these without unfolding a meaning again. -/

namespace Sys2Proof.Machine

/-- The state after the body's bus reads, in the order of spec/20_memory.md R57. -/
def afterReads (i : Instr) (s : State) : State := (busReads i s).foldl (fun u a => readEffect a u) s

/-- Reading a list of addresses keeps what one bus read keeps. -/
theorem foldl_readEffect_keeps (as : List Addr) (s : State) :
    (as.foldl (fun u a => readEffect a u) s).regs = s.regs ∧ (as.foldl (fun u a => readEffect a u) s).pc = s.pc ∧
    (as.foldl (fun u a => readEffect a u) s).cond = s.cond ∧ (as.foldl (fun u a => readEffect a u) s).run = s.run ∧
    (as.foldl (fun u a => readEffect a u) s).cfg = s.cfg ∧
    KeepsCells [s.cfg.kbsrAddr, s.cfg.kbdrAddr] s (as.foldl (fun u a => readEffect a u) s) ∧
    (s.mem.wf = true → (as.foldl (fun u a => readEffect a u) s).mem.wf = true) := by
  induction as generalizing s with
  | nil => exact ⟨rfl, rfl, rfl, rfl, rfl, fun _ _ => rfl, id⟩
  | cons a as ih =>
    obtain ⟨h1, h2, h3, h4, h5, h6, h7⟩ := ih (readEffect a s)
    refine ⟨by simpa using h1, by simpa using h2, by simpa using h3, by simpa using h4, by simpa using h5, ?_, ?_⟩
    · intro b hb
      exact (h6 b (by simpa using hb)).trans (keepsCells_readEffect s a b hb)
    · exact fun h => h7 (readEffect_wf s a h)

/-- Without a read of `KBSR_ADDR` nothing changes. -/
theorem foldl_readEffect_of_not_mem (as : List Addr) (s : State) (h : s.cfg.kbsrAddr ∉ as) :
    as.foldl (fun u a => readEffect a u) s = s := by
  induction as with
  | nil => rfl
  | cons a as ih =>
    simp only [List.mem_cons, not_or] at h
    simp [readEffect_of_ne s (Ne.symm h.1), ih h.2]

@[simp] theorem afterReads_regs (i : Instr) (s : State) : (afterReads i s).regs = s.regs := (foldl_readEffect_keeps _ s).1
@[simp] theorem afterReads_pc (i : Instr) (s : State) : (afterReads i s).pc = s.pc := (foldl_readEffect_keeps _ s).2.1
@[simp] theorem afterReads_cond (i : Instr) (s : State) : (afterReads i s).cond = s.cond := (foldl_readEffect_keeps _ s).2.2.1
@[simp] theorem afterReads_run (i : Instr) (s : State) : (afterReads i s).run = s.run := (foldl_readEffect_keeps _ s).2.2.2.1
@[simp] theorem afterReads_cfg (i : Instr) (s : State) : (afterReads i s).cfg = s.cfg := (foldl_readEffect_keeps _ s).2.2.2.2.1
@[simp] theorem afterReads_readReg (i : Instr) (s : State) (r : Reg) : (afterReads i s).readReg r = s.readReg r := by
  simp [State.readReg]

theorem keepsCells_afterReads (i : Instr) (s : State) : KeepsCells [s.cfg.kbsrAddr, s.cfg.kbdrAddr] s (afterReads i s) :=
  (foldl_readEffect_keeps _ s).2.2.2.2.2.1

theorem wf_afterReads (i : Instr) (s : State) (h : s.mem.wf = true) : (afterReads i s).mem.wf = true :=
  (foldl_readEffect_keeps _ s).2.2.2.2.2.2 h

theorem afterReads_of_not_mem (i : Instr) (s : State) (h : s.cfg.kbsrAddr ∉ busReads i s) : afterReads i s = s :=
  foldl_readEffect_of_not_mem _ s h

/-- The five shapes in which an instruction can end. -/
inductive Ending (i : Instr) (s : State) : State → Prop where
  /-- A result in a destination register, with its flags. -/
  | result (dr : Reg) (v : Word) (hd : flagDest i = some dr) (hw : busWrite i s = none) (hp : writesPC i = false) :
      Ending i s (writeResult dr v (afterReads i s))
  /-- One bus write. -/
  | store (a : Addr) (v : Word) (hd : flagDest i = none) (hw : busWrite i s = some (a, v)) (hp : writesPC i = false) :
      Ending i s (memWrite a v (afterReads i s))
  /-- PC alone may change: BR, JMP, and the two no-ops. -/
  | jump (p : Addr) (hd : flagDest i = none) (hw : busWrite i s = none) (hr : busReads i s = []) (hn : regWrites i = [])
      (hp : writesPC i = true ∨ p = s.pc) : Ending i s (s.setPC p)
  /-- The link in R7 and a jump: JSR, JSRR, vectored TRAP. -/
  | call (p : Addr) (hd : flagDest i = none) (hw : busWrite i s = none) (hn : regWrites i = [.r7]) (hp : writesPC i = true)
      (hh : ¬ isHaltTrap i s) : Ending i s ((linkReturn (afterReads i s)).setPC p)
  /-- The halt-trap. -/
  | halt (hi : isHaltTrap i s) (hd : flagDest i = none) (hw : busWrite i s = none) (hr : busReads i s = []) :
      Ending i s ((linkReturn s).setRun .halted)

/-- Every next state is one of the five endings. -/
theorem exec_ending {i : Instr} {s t : State} (h : exec i s = .next t) : Ending i s t := by
  cases i with
  | br nzp off =>
    simp only [exec, execBr] at h
    split at h <;> cases h
    · exact .jump _ rfl rfl rfl rfl (.inl rfl)
    · exact Ending.jump (i := .br nzp off) s.pc rfl rfl rfl rfl (.inr rfl)
  | addReg dr a b => cases h; exact Ending.result (i := .addReg dr a b) dr _ rfl rfl rfl
  | addImm dr a imm => cases h; exact Ending.result (i := .addImm dr a imm) dr _ rfl rfl rfl
  | andReg dr a b => cases h; exact Ending.result (i := .andReg dr a b) dr _ rfl rfl rfl
  | andImm dr a imm => cases h; exact Ending.result (i := .andImm dr a imm) dr _ rfl rfl rfl
  | not dr a => cases h; exact Ending.result (i := .not dr a) dr _ rfl rfl rfl
  | lea dr off => cases h; exact Ending.result (i := .lea dr off) dr _ rfl rfl rfl
  | ld dr off => cases h; exact Ending.result (i := .ld dr off) dr _ rfl rfl rfl
  | ldi dr off => cases h; exact Ending.result (i := .ldi dr off) dr _ rfl rfl rfl
  | ldr dr base off => cases h; exact Ending.result (i := .ldr dr base off) dr _ rfl rfl rfl
  | st sr off => cases h; exact Ending.store (i := .st sr off) _ _ rfl rfl rfl
  | str sr base off => cases h; exact Ending.store (i := .str sr base off) _ _ rfl rfl rfl
  | sti sr off =>
    cases h
    have : (readPointer off s).2.readReg sr = s.readReg sr := readEffect_readReg _ _ _
    rw [this]
    exact Ending.store (i := .sti sr off) _ _ rfl rfl rfl
  | jmp base => cases h; exact .jump _ rfl rfl rfl rfl (.inl rfl)
  | rti => cases h; exact Ending.jump (i := .rti) s.pc rfl rfl rfl rfl (.inr rfl)
  | reserved => cases h; exact Ending.jump (i := .reserved) s.pc rfl rfl rfl rfl (.inr rfl)
  | jsr off => cases h; exact Ending.call (i := .jsr off) _ rfl rfl rfl rfl (by simp [isHaltTrap])
  | jsrr base => cases h; exact Ending.call (i := .jsrr base) _ rfl rfl rfl rfl (by simp [isHaltTrap])
  | trap vector =>
    cases h
    obtain ⟨hv, ht⟩ | ⟨hv, ht⟩ := trapEnter_cases s vector <;> rw [ht]
    · exact .halt (by simp [isHaltTrap, hv]) rfl rfl (by simp [busReads, hv])
    · have hr : readEffect (trapSlot vector s) s = afterReads (.trap vector) s := by simp [afterReads, busReads, hv]
      rw [hr]
      exact .call _ rfl rfl rfl rfl (by simp [isHaltTrap, hv])

/-- A step answers a next state exactly when the machine runs and the fetched instruction does. -/
theorem step_eq_next {s t : State} :
    step s = .next t ↔ s.run = .running ∧ exec (decode (fetch s).1) (fetch s).2 = .next t := by
  unfold step
  cases h : s.run <;> simp

/-- A running machine's step is its instruction's body on the fetched state. -/
theorem step_of_running {s : State} (h : s.run = .running) : step s = exec (decode (fetch s).1) (fetch s).2 := by
  simp [step, h]

/-- A halted machine has no step. -/
theorem step_of_halted {s : State} (h : s.run = .halted) : step s = .fault .halted := by
  simp [step, h]

/-- The cell where an instruction is placed is never the status cell. -/
theorem fetchSlot_ne (s : State) : fetchSlot s ≠ s.cfg.kbsrAddr := by
  unfold fetchSlot
  split
  · next h =>
    rw [← h]
    intro e
    have := congrArg (fun x => x - s.pc) e
    simp at this
  · assumption

/-- A placed word is exactly what the next step runs (log entry 20). -/
theorem step_withFetchWord (s : State) (nbits w : Nat) :
    step (s.withFetchWord nbits w) =
      exec (decode (tableWord nbits w)) ((s.withFetchWord nbits w).setPC (fetchSlot s + 1#16)) := by
  rw [step_of_running (show (s.withFetchWord nbits w).run = .running from rfl),
    fetch_of_ne _ (show (s.withFetchWord nbits w).pc ≠ (s.withFetchWord nbits w).cfg.kbsrAddr from fetchSlot_ne s)]
  have hc : (s.withFetchWord nbits w).cell (s.withFetchWord nbits w).pc = tableWord nbits w :=
    State.cell_setCell_same s (fetchSlot s) _
  rw [hc]
  rfl

@[simp] theorem fetch_regs (s : State) : (fetch s).2.regs = s.regs := readEffect_regs _ _
@[simp] theorem fetch_readReg (s : State) (r : Reg) : (fetch s).2.readReg r = s.readReg r := readEffect_readReg _ _ _
@[simp] theorem fetch_pc (s : State) : (fetch s).2.pc = s.pc + 1#16 := rfl
@[simp] theorem fetch_cond (s : State) : (fetch s).2.cond = s.cond := readEffect_cond _ _
@[simp] theorem fetch_run (s : State) : (fetch s).2.run = s.run := readEffect_run _ _
@[simp] theorem fetch_cfg (s : State) : (fetch s).2.cfg = s.cfg := readEffect_cfg _ _

end Sys2Proof.Machine
end

