-- ==== Sys2Proof/Laws/PerInstr.lean ====
section
/-! SUPPORT. The family `EncodedWordHasRowBits` of LAWS.json: an instruction's encoded word carries the fixed bits of its row of
spec/opcode_table.json ("match" and "mask"), and writes the ignored bits of spec/30_encoding.md R91 as assemblers do. -/

namespace Sys2Proof.Laws.EncodedWordHasRowBits

open Sys2Proof.Machine

/-- The encoded word has its row's fixed bits. -/
def Statement (i : Instr) : Prop := encode i &&& rowMask i = rowMatch i

/-- Two words with the same sixteen bits are equal; the bits of the encoder's pieces are computed one by one. -/
theorem eq_of_bits {x y : Word} (h : ∀ k : Fin 16, x.getLsbD k = y.getLsbD k) : x = y :=
  BitVec.eq_of_getLsbD_eq fun k hk => h ⟨k, hk⟩

theorem br (nzp : BitVec 3) (offset : BitVec 9) : Statement (.br nzp offset) := by
  refine eq_of_bits fun k => ?_
  fin_cases k <;> simp [encode, rowMask, rowMatch, Opcode.number, place]

theorem addReg (dr sr1 sr2 : Reg) : Statement (.addReg dr sr1 sr2) := by
  refine eq_of_bits fun k => ?_
  fin_cases k <;> simp [encode, rowMask, rowMatch, Opcode.number, place]

theorem addImm (dr sr1 : Reg) (imm : BitVec 5) : Statement (.addImm dr sr1 imm) := by
  refine eq_of_bits fun k => ?_
  fin_cases k <;> simp [encode, rowMask, rowMatch, Opcode.number, place]

theorem ld (dr : Reg) (offset : BitVec 9) : Statement (.ld dr offset) := by
  refine eq_of_bits fun k => ?_
  fin_cases k <;> simp [encode, rowMask, rowMatch, Opcode.number, place]

theorem st (sr : Reg) (offset : BitVec 9) : Statement (.st sr offset) := by
  refine eq_of_bits fun k => ?_
  fin_cases k <;> simp [encode, rowMask, rowMatch, Opcode.number, place]

theorem jsr (offset : BitVec 11) : Statement (.jsr offset) := by
  refine eq_of_bits fun k => ?_
  fin_cases k <;> simp [encode, rowMask, rowMatch, Opcode.number, place]

theorem jsrr (base : Reg) : Statement (.jsrr base) := by
  refine eq_of_bits fun k => ?_
  fin_cases k <;> simp [encode, rowMask, rowMatch, Opcode.number, place]

theorem andReg (dr sr1 sr2 : Reg) : Statement (.andReg dr sr1 sr2) := by
  refine eq_of_bits fun k => ?_
  fin_cases k <;> simp [encode, rowMask, rowMatch, Opcode.number, place]

theorem andImm (dr sr1 : Reg) (imm : BitVec 5) : Statement (.andImm dr sr1 imm) := by
  refine eq_of_bits fun k => ?_
  fin_cases k <;> simp [encode, rowMask, rowMatch, Opcode.number, place]

theorem ldr (dr base : Reg) (offset : BitVec 6) : Statement (.ldr dr base offset) := by
  refine eq_of_bits fun k => ?_
  fin_cases k <;> simp [encode, rowMask, rowMatch, Opcode.number, place]

theorem str (sr base : Reg) (offset : BitVec 6) : Statement (.str sr base offset) := by
  refine eq_of_bits fun k => ?_
  fin_cases k <;> simp [encode, rowMask, rowMatch, Opcode.number, place]

theorem rti : Statement (.rti) := by
  refine eq_of_bits fun k => ?_
  fin_cases k <;> simp [encode, rowMask, rowMatch, Opcode.number, place]

theorem not (dr sr : Reg) : Statement (.not dr sr) := by
  refine eq_of_bits fun k => ?_
  fin_cases k <;> simp [encode, rowMask, rowMatch, Opcode.number, place]

theorem ldi (dr : Reg) (offset : BitVec 9) : Statement (.ldi dr offset) := by
  refine eq_of_bits fun k => ?_
  fin_cases k <;> simp [encode, rowMask, rowMatch, Opcode.number, place]

theorem sti (sr : Reg) (offset : BitVec 9) : Statement (.sti sr offset) := by
  refine eq_of_bits fun k => ?_
  fin_cases k <;> simp [encode, rowMask, rowMatch, Opcode.number, place]

theorem jmp (base : Reg) : Statement (.jmp base) := by
  refine eq_of_bits fun k => ?_
  fin_cases k <;> simp [encode, rowMask, rowMatch, Opcode.number, place]

theorem reserved : Statement (.reserved) := by
  refine eq_of_bits fun k => ?_
  fin_cases k <;> simp [encode, rowMask, rowMatch, Opcode.number, place]

theorem lea (dr : Reg) (offset : BitVec 9) : Statement (.lea dr offset) := by
  refine eq_of_bits fun k => ?_
  fin_cases k <;> simp [encode, rowMask, rowMatch, Opcode.number, place]

theorem trap (vector : BitVec 8) : Statement (.trap vector) := by
  refine eq_of_bits fun k => ?_
  fin_cases k <;> simp [encode, rowMask, rowMatch, Opcode.number, place]

end Sys2Proof.Laws.EncodedWordHasRowBits
end

