-- ==== Sys2Proof/Tests/Slice0.lean ====
section
/-! SUPPORT. The model's own tests. Expected results are those of spec/95_test_vectors.md (the vector is named at each test) or
words written out from the layouts of spec/30_encoding.md R88; then one witness for the hypotheses of each statement. -/

namespace Sys2Proof.Tests

open Sys2Proof.Machine

/-! ## Helpers -/

/-- The start of spec/95_test_vectors.md: the defaults, with no keyboard input coming. -/
def base : State := State.reset.setKbInput (.script [])

/-- `s` with the listed cells written. -/
def put (cells : List (Addr × Word)) (s : State) : State := cells.foldl (fun u c => u.setCell c.1 c.2) s

/-- `base` with the instruction `w` at 0x3000 and register `r` holding `v`. -/
def one (w : Word) (r : Reg) (v : Word) : State := put [(0x3000#16, w)] (base.writeReg r v)

/-- What is seen of the next state, if there is one. -/
def see {α : Type} (view : State → α) (s : State) : Option α :=
  match step s with
  | .next t => some (view t)
  | .fault _ => none
  | .refused _ => none

/-- The next state, or `s` itself. -/
def after (s : State) : State :=
  match step s with
  | .next t => t
  | .fault _ => s
  | .refused _ => s

/-! ## Well-formedness: the one check, and a term it refuses -/

theorem test_config_default_accepted : launchConfig.wf = true := by decide
theorem test_config_equal_keyboard_cells_refused :
    Config.wf { launchConfig with kbdrAddr := launchConfig.kbsrAddr } = false := by decide
theorem test_instruction_always_wellFormed : (Instr.trap 0xFF#8).wellFormed = true := by decide

/-! ## Decoding: each form's word, bit by bit from R88 -/

theorem test_decode_br : decode 0b0000_101_111111011#16 = .br 0b101#3 0x1FB#9 := by decide
theorem test_decode_addReg : decode 0b0001_010_011_0_00_100#16 = .addReg .r2 .r3 .r4 := by decide
theorem test_decode_addImm : decode 0b0001_000_001_1_11111#16 = .addImm .r0 .r1 0b11111#5 := by decide
theorem test_decode_ld : decode 0b0010_010_000000101#16 = .ld .r2 5#9 := by decide
theorem test_decode_st : decode 0b0011_011_000000010#16 = .st .r3 2#9 := by decide
theorem test_decode_jsr : decode 0b0100_1_00000001000#16 = .jsr 8#11 := by decide
theorem test_decode_jsrr : decode 0b0100_0_00_110_000000#16 = .jsrr .r6 := by decide
theorem test_decode_andReg : decode 0b0101_101_001_0_11_010#16 = .andReg .r5 .r1 .r2 := by decide
theorem test_decode_andImm : decode 0b0101_001_010_1_10000#16 = .andImm .r1 .r2 0b10000#5 := by decide
theorem test_decode_ldr : decode 0b0110_100_101_111111#16 = .ldr .r4 .r5 0b111111#6 := by decide
theorem test_decode_str : decode 0b0111_000_110_100000#16 = .str .r0 .r6 0b100000#6 := by decide
theorem test_decode_rti : decode 0b1000_000100100011#16 = .rti := by decide
theorem test_decode_not : decode 0b1001_010_001_111111#16 = .not .r2 .r1 := by decide
theorem test_decode_ldi : decode 0b1010_011_000000100#16 = .ldi .r3 4#9 := by decide
theorem test_decode_sti : decode 0b1011_010_000000011#16 = .sti .r2 3#9 := by decide
theorem test_decode_jmp : decode 0b1100_111_011_111111#16 = .jmp .r3 := by decide
theorem test_decode_reserved : decode 0b1101_010001010110#16 = .reserved := by decide
theorem test_decode_lea : decode 0b1110_000_111111110#16 = .lea .r0 0x1FE#9 := by decide
theorem test_decode_trap : decode 0b1111_1111_00100101#16 = .trap 0x25#8 := by decide

/-- Words of the spec's examples, encoded (R110 to R137): ADD, NOT with its six ones, JMP R7, HALT. -/
theorem test_encode_examples :
    encode (.addReg .r2 .r3 .r4) = 0x14C4#16 ∧ encode (.not .r2 .r1) = 0x947F#16 ∧ encode (.jmp .r7) = 0xC1C0#16 ∧
      encode (.trap 0x25#8) = 0xF025#16 := by decide

theorem test_decodeTableWord :
    decodeTableWord 16 0x71A0 = some (.str .r0 .r6 0x20#6) ∧ decodeTableWord 17 0x71A0 = none := by decide

/-! ## Placing an instruction after reset -/

theorem test_reset_runs_placed_word :
    see (fun t => (t.readReg .r0, t.pc, t.cond)) (State.reset.withFetchWord 16 0x103F) =
      some (0xFFFF#16, 0x3001#16, 0b100#3) := by decide
theorem test_reset_runs_placed_halt : see (fun t => t.run) (State.reset.withFetchWord 16 0xF025) = some .halted := by decide

/-! ## Operate (vectors O) -/

theorem test_addReg_O1 : see (fun t => (t.readReg .r2, t.cond, t.pc)) ((one 0x14C4#16 .r3 0x0003#16).writeReg .r4 0xFFFE#16) =
    some (0x0001#16, 0b001#3, 0x3001#16) := by decide
theorem test_addReg_O5_same_register : see (fun t => (t.readReg .r5, t.cond)) (one 0x1B45#16 .r5 0x8000#16) =
    some (0x0000#16, 0b010#3) := by decide
theorem test_addImm_O3_overflow : see (fun t => (t.readReg .r1, t.cond)) (one 0x1261#16 .r1 0x7FFF#16) =
    some (0x8000#16, 0b100#3) := by decide
theorem test_addImm_O6_smallest : see (fun t => (t.readReg .r1, t.cond)) (one 0x1270#16 .r1 0x0010#16) =
    some (0x0000#16, 0b010#3) := by decide
theorem test_andReg_O10 : see (fun t => (t.readReg .r2, t.cond)) ((one 0x54C4#16 .r3 0xFF0F#16).writeReg .r4 0x0FF0#16) =
    some (0x0F00#16, 0b001#3) := by decide
theorem test_andImm_O12_sign_extended : see (fun t => (t.readReg .r1, t.cond)) (one 0x52B0#16 .r2 0xABCD#16) =
    some (0xABC0#16, 0b100#3) := by decide
theorem test_andImm_O13 : see (fun t => (t.readReg .r1, t.cond)) (one 0x52AF#16 .r2 0xABCD#16) =
    some (0x000D#16, 0b001#3) := by decide
theorem test_not_O15 : see (fun t => (t.readReg .r2, t.cond)) (one 0x947F#16 .r1 0x0019#16) =
    some (0xFFE6#16, 0b100#3) := by decide
theorem test_not_O19_ignored_bits : see (fun t => (t.readReg .r2, t.cond)) (one 0x9440#16 .r1 0x0019#16) =
    some (0xFFE6#16, 0b100#3) := by decide

/-! ## Data movement (vectors M) -/

theorem test_ld_M1 : see (fun t => (t.readReg .r2, t.cond)) (put [(0x3000#16, 0x2405#16), (0x3006#16, 0xBEEF#16)] base) =
    some (0xBEEF#16, 0b100#3) := by decide
theorem test_ld_M5_wraps : see (fun t => (t.readReg .r1, t.cond, t.pc))
    (put [(0x0005#16, 0x23F0#16), (0xFFF6#16, 0x7FFF#16)] (base.setPC 0x0005#16)) =
      some (0x7FFF#16, 0b001#3, 0x0006#16) := by decide
theorem test_ldi_M6 : see (fun t => (t.readReg .r3, t.cond))
    (put [(0x3000#16, 0xA604#16), (0x3005#16, 0x4000#16), (0x4000#16, 0x0007#16)] base) =
      some (0x0007#16, 0b001#3) := by decide
theorem test_ldr_M9_base_is_destination : see (fun t => (t.readReg .r1, t.cond))
    (put [(0x4000#16, 0x8000#16)] (one 0x6240#16 .r1 0x4000#16)) = some (0x8000#16, 0b100#3) := by decide
theorem test_ldr_M10_wraps : see (fun t => (t.readReg .r1, t.cond))
    (put [(0x000F#16, 0x0001#16)] (one 0x629F#16 .r2 0xFFF0#16)) = some (0x0001#16, 0b001#3) := by decide
theorem test_lea_M12 : see (fun t => (t.readReg .r0, t.cond)) (put [(0x3000#16, 0xE1FE#16)] base) =
    some (0x2FFF#16, 0b001#3) := by decide
theorem test_lea_M14b_at_top : see (fun t => (t.readReg .r1, t.cond, t.pc))
    (put [(0xFFFF#16, 0xE200#16)] ((base.setPC 0xFFFF#16).setCond 0b001#3)) =
      some (0x0000#16, 0b010#3, 0x0000#16) := by decide
theorem test_st_M15 : see (fun t => (t.cell 0x3003#16, t.cond)) ((one 0x3602#16 .r3 0x1234#16).setCond 0b100#3) =
    some (0x1234#16, 0b100#3) := by decide
theorem test_st_M16 : see (fun t => t.cell 0x2F01#16) (one 0x3F00#16 .r7 0xCAFE#16) = some 0xCAFE#16 := by decide
theorem test_sti_M17 : see (fun t => (t.cell 0x4000#16, t.cell 0x3004#16))
    (put [(0x3004#16, 0x4000#16)] (one 0xB403#16 .r2 0xFFD8#16)) = some (0xFFD8#16, 0x4000#16) := by decide
theorem test_sti_M18_own_pointer : see (fun t => t.cell 0x3001#16)
    (put [(0x3001#16, 0x3001#16)] (one 0xB400#16 .r2 0x1234#16)) = some 0x1234#16 := by decide
theorem test_str_M20_source_is_base : see (fun t => t.cell 0x5000#16) (one 0x7240#16 .r1 0x5000#16) =
    some 0x5000#16 := by decide
theorem test_str_M21_wraps : see (fun t => t.cell 0x0000#16) ((one 0x7281#16 .r2 0xFFFF#16).writeReg .r1 0xAAAA#16) =
    some 0xAAAA#16 := by decide

/-! ## Control (vectors T) -/

theorem test_br_T1_taken_on_selected_flag_only :
    ([0b100#3, 0b010#3, 0b001#3, 0b000#3, 0b111#3].map fun c =>
      see (fun t => t.pc) (put [(0x3007#16, 0x03FB#16)] ((base.setPC 0x3007#16).setCond c))) =
      [some 0x3008#16, some 0x3008#16, some 0x3003#16, some 0x3008#16, some 0x3003#16] := by decide
theorem test_br_T8_wraps : see (fun t => t.pc) (put [(0xFFFF#16, 0x0601#16)] ((base.setPC 0xFFFF#16).setCond 0b001#3)) =
    some 0x0001#16 := by decide
theorem test_jmp_T11b_ignored_bits : see (fun t => t.pc) (one 0xCEFF#16 .r3 0x3100#16) = some 0x3100#16 := by decide
theorem test_jsr_T13b_smallest : see (fun t => (t.readReg .r7, t.pc)) (put [(0x3002#16, 0x4C00#16)] (base.setPC 0x3002#16)) =
    some (0x3003#16, 0x2C03#16) := by decide
theorem test_jsrr_T14 : see (fun t => (t.readReg .r7, t.pc))
    (put [(0x3005#16, 0x4180#16)] ((base.setPC 0x3005#16).writeReg .r6 0x4000#16)) = some (0x3006#16, 0x4000#16) := by decide
theorem test_jsrr_T14b_r7 : see (fun t => (t.readReg .r7, t.pc))
    (put [(0x3005#16, 0x41C0#16)] ((base.setPC 0x3005#16).writeReg .r7 0x5000#16)) = some (0x3006#16, 0x3006#16) := by decide
theorem test_trap_T10_halts : see (fun t => (t.readReg .r7, t.pc, t.run, t.cond))
    (put [(0x3000#16, 0xF025#16), (0x0025#16, 0x1234#16)] (base.setCond 0b100#3)) =
      some (0x3001#16, 0x3001#16, .halted, 0b100#3) := by decide
theorem test_trap_T17_zero_extended : see (fun t => (t.readReg .r7, t.pc, t.run))
    (put [(0x3000#16, 0xF080#16), (0x0080#16, 0x0200#16), (0xFF80#16, 0x9999#16)] base) =
      some (0x3001#16, 0x0200#16, .running) := by decide
theorem test_rti_T18b : see id (one 0x8FFF#16 .r1 0x1111#16) = some ((one 0x8FFF#16 .r1 0x1111#16).setPC 0x3001#16) := by
  decide
theorem test_reserved_T19b : see id (one 0xDABC#16 .r1 0x1111#16) =
    some ((one 0xDABC#16 .r1 0x1111#16).setPC 0x3001#16) := by decide
theorem test_halted_has_no_step : see id (base.setRun .halted) = none := by decide

/-! ## Keyboard (vectors K) -/

/-- What vectors K look at: R1, COND, the status and data cells, the queue. -/
def keys (t : State) : Word × BitVec 3 × Word × Word × List Byte :=
  (t.readReg .r1, t.cond, t.cell 0xFE00#16, t.cell 0xFE02#16, t.kbq)

theorem test_poll_K1_empty :
    see keys (put [(0x3000#16, 0xA201#16), (0x3002#16, 0xFE00#16), (0xFE00#16, 0x1234#16), (0xFE02#16, 0x0055#16)] base) =
      some (0x0000#16, 0b010#3, 0x0000#16, 0x0055#16, []) := by decide
theorem test_poll_K3_one_character :
    see keys (put [(0x3000#16, 0xA201#16), (0x3002#16, 0xFE00#16)] (base.setKbq [0x41#8, 0x42#8])) =
      some (0x8000#16, 0b100#3, 0x8000#16, 0x0041#16, [0x42#8]) := by decide
theorem test_data_cell_K4_plain :
    see keys (put [(0x3000#16, 0xA201#16), (0x3002#16, 0xFE02#16), (0xFE02#16, 0x0041#16)] (base.setKbq [0x42#8])) =
      some (0x0041#16, 0b001#3, 0x0000#16, 0x0041#16, [0x42#8]) := by decide
theorem test_poll_K5_zero_extended : see keys ((one 0x6240#16 .r1 0xFE00#16).setKbq [0xFF#8]) =
    some (0x8000#16, 0b100#3, 0x8000#16, 0x00FF#16, []) := by decide
theorem test_store_K7b_never_polls : see keys ((one 0x7240#16 .r1 0xFE00#16).setKbq [0x41#8]) =
    some (0xFE00#16, 0b010#3, 0xFE00#16, 0x0000#16, [0x41#8]) := by decide
theorem test_fetch_K8_polls : see (fun t => (t.cell 0xFE00#16, t.pc, t.run)) (put [(0xFE00#16, 0xF025#16)] (base.setPC 0xFE00#16)) =
    some (0x0000#16, 0xFE01#16, .running) := by decide
theorem test_fetch_K9_takes_character : see (fun t => (t.cell 0xFE00#16, t.cell 0xFE02#16, t.kbq, t.pc)) ((base.setPC 0xFE00#16).setKbq [0x41#8]) =
    some (0x8000#16, 0x0041#16, [], 0xFE01#16) := by decide
theorem test_arrival_before_poll : see keys ((one 0x6240#16 .r1 0xFE00#16).setKbInput (.script [[0x41#8, 0x42#8], [0x43#8]])) =
    some (0x8000#16, 0b100#3, 0x8000#16, 0x0041#16, [0x42#8]) := by decide

/-! ## Witnesses: concrete states and operands that meet the hypotheses of each statement, clause by clause -/

theorem witness_SignExtensionFillsWithSignBit :
    (1 ≤ 16 ∧ 16 ≤ 16 ∧ (0x8000#16).getLsbD (16 - 1) = true) ∧ (1 ≤ 5 ∧ 5 ≤ 16 ∧ (0x0F#5).getLsbD (5 - 1) = false) ∧
      (1 ≤ 1 ∧ (1#1).getLsbD (1 - 1) = true ∧ 0 < 1) := by decide
theorem witness_SetccGivesTheSignOfTheValue :
    (0x0000#16 = 0x0000#16) ∧ (0x8000#16 ≠ 0x0000#16 ∧ (0x8000#16).getLsbD 15 = true) ∧
      (0x7FFF#16 ≠ 0x0000#16 ∧ (0x7FFF#16).getLsbD 15 = false) := by decide
theorem witness_RegisterFileGetAndSet : Reg.bits .r7 = 0b111#3 ∧ Reg.bits .r0 = 0b000#3 := by decide
theorem witness_RegistersReadAndWrittenAsTabled :
    (∃ t, exec (.addReg .r0 .r1 .r2) base = .next t) ∧ Reg.r3 ∉ regReads (.addReg .r0 .r1 .r2) ∧
      Reg.r0 ∉ regReads (.addReg .r0 .r1 .r2) ∧ Reg.r0 ∈ regWrites (.addReg .r0 .r1 .r2) := ⟨⟨_, rfl⟩, by decide⟩
theorem witness_ProgramCounterReadAndWrittenAsListed :
    base.run = .running ∧ (exec .rti base = .next base ∧ writesPC .rti = false ∧ readsPC .rti = false) ∧
      (exec (.br 0b100#3 5#9) base = .next base ∧ 0b100#3 &&& base.cond = 0#3) ∧
      (∃ t, exec (.trap base.cfg.haltVector) base = .next t) ∧
      ((∃ t, exec (.jmp .r3) base = .next t) ∧ readsPC (.jmp .r3) = false ∧ writesPC (.jmp .r3) = true) :=
  ⟨rfl, ⟨rfl, rfl, rfl⟩, ⟨rfl, rfl⟩, ⟨_, rfl⟩, ⟨_, rfl⟩, rfl, rfl⟩
theorem witness_FlagsWrittenOnlyByTheListedInstructions :
    ((∃ t, exec (.lea .r1 3#9) base = .next t) ∧ flagDest (.lea .r1 3#9) = some .r1) ∧
      ((∃ t, exec (.jsr 3#11) base = .next t) ∧ flagDest (.jsr 3#11) = none) := ⟨⟨⟨_, rfl⟩, rfl⟩, ⟨_, rfl⟩, rfl⟩
theorem witness_ExactlyOneFlagForEver :
    (flagDest (.not .r1 .r2) = some .r1 ∧ ∃ t, exec (.not .r1 .r2) base = .next t) ∧
      (Steps base (after base) ∧ CondOneHot base.cond) :=
  ⟨⟨rfl, _, rfl⟩, .tail (.refl _) rfl, .inr (.inl rfl)⟩
theorem witness_ConditionFlagsReadOnlyByBranch :
    (∀ nzp off, Instr.ld .r1 0#9 ≠ .br nzp off) ∧ (∃ t, exec (.ld .r1 0#9) base = .next t) :=
  ⟨fun _ _ => Instr.noConfusion, _, rfl⟩
theorem witness_StepFetchesIncrementsAndExecutes : (base.setRun .halted).run = .halted ∧ base.run = .running := ⟨rfl, rfl⟩
theorem witness_OnlyTheHaltTrapStopsTheMachine :
    base.run = .running ∧ (base.setRun .halted).run = .halted ∧ Steps (base.setRun .halted) (base.setRun .halted) ∧
      (∃ t, exec (.trap base.cfg.haltVector) base = .next t) ∧ (∃ t, exec (.st .r1 0#9) base = .next t) :=
  ⟨rfl, rfl, .refl _, ⟨_, rfl⟩, _, rfl⟩
theorem witness_HaltTrapHaltsInOneStep :
    (one 0xF025#16 .r1 1#16).run = .running ∧ (one 0xF025#16 .r1 1#16).pc ≠ (one 0xF025#16 .r1 1#16).cfg.kbsrAddr ∧
      ((one 0xF025#16 .r1 1#16).cell (one 0xF025#16 .r1 1#16).pc).extractLsb' 12 4 = 0xF#4 ∧
      ((one 0xF025#16 .r1 1#16).cell (one 0xF025#16 .r1 1#16).pc).extractLsb' 0 8 =
        (one 0xF025#16 .r1 1#16).cfg.haltVector := by decide
theorem witness_BusReadPollsOnlyAtTheStatusAddress :
    (0x3000#16 ≠ base.cfg.kbsrAddr) ∧ (0xFE00#16 = base.cfg.kbsrAddr) ∧ (0xFE02#16 ≠ base.cfg.kbsrAddr) := by decide
theorem witness_PollTakesOneCharacterOrClearsTheStatus :
    base.cfg.wf = true ∧ base.kbq ++ base.kbInput.next.1 = [] ∧
      (base.setKbq [0x41#8]).kbq ++ (base.setKbq [0x41#8]).kbInput.next.1 = [0x41#8] := by decide
theorem witness_FetchFromStatusAddressPollsAndDoesNothingElse :
    (base.setPC 0xFE00#16).cfg.wf = true ∧ (base.setPC 0xFE00#16).run = .running ∧
      (base.setPC 0xFE00#16).pc = (base.setPC 0xFE00#16).cfg.kbsrAddr := by decide
theorem witness_PollsAreTheBusReadsOfTheStatusAddress :
    State.reset.kbInput = .free 0 ∧ (∃ t, exec (.ldr .r1 .r2 0#6) State.reset = .next t) ∧
      State.reset.cfg.kbsrAddr ∉ busReads (.ldr .r1 .r2 0#6) State.reset ∧ (∃ t, step State.reset = .next t) ∧
      (State.reset.writeReg .r2 0xFE00#16).cfg.kbsrAddr ∈ busReads (.ldr .r1 .r2 0#6) (State.reset.writeReg .r2 0xFE00#16) :=
  ⟨rfl, ⟨_, rfl⟩, by decide, ⟨_, rfl⟩, by decide⟩
theorem witness_CellsChangeOnlyByStoresAndPolls :
    (∃ t, exec (.st .r1 2#9) base = .next t) ∧ busWrite (.st .r1 2#9) base = some (0x3002#16, 0x0000#16) ∧
      (∀ v, busWrite (.st .r1 2#9) base ≠ some (0x3003#16, v)) ∧ base.cfg.kbsrAddr ∉ busReads (.st .r1 2#9) base ∧
      0x3003#16 ≠ base.cfg.kbsrAddr ∧ 0x3003#16 ≠ base.cfg.kbdrAddr :=
  ⟨⟨_, rfl⟩, by decide, fun v h => absurd (congrArg (Option.map Prod.fst) h) (by
    show ¬ some 0x3002#16 = some 0x3003#16
    decide), by decide, by decide, by decide⟩
theorem witness_CharactersAreTakenInArrivalOrder :
    (base.setKbInput (.script [[0x41#8]])).kbInput = .script [[0x41#8]] ∧
      ∃ t, step (base.setKbInput (.script [[0x41#8]])) = .next t := ⟨rfl, _, rfl⟩
theorem witness_KeyboardUnobservedWithoutStatusRead :
    base.pc ≠ base.cfg.kbsrAddr ∧ base.cfg.kbsrAddr ∉ busReads (decode (fetch base).1) (fetch base).2 ∧
      ∃ t, step base = .next t := ⟨by decide, by decide, _, rfl⟩

/-- The document's property S9: ST R3, #2 then LD R4, #1. -/
def roundTrip : State := put [(0x3000#16, 0x3602#16), (0x3001#16, 0x2801#16)] (base.writeReg .r3 0x1234#16)

theorem witness_StoreThenLoadGivesTheStoredWord :
    step roundTrip = .next (after roundTrip) ∧ step (after roundTrip) = .next (after (after roundTrip)) ∧
      busWrite (decode (fetch roundTrip).1) (fetch roundTrip).2 = some (0x3003#16, 0x1234#16) ∧
      loadOf (decode (fetch (after roundTrip)).1) (fetch (after roundTrip)).2 = some (.r4, 0x3003#16) ∧
      (after roundTrip).cfg.kbsrAddr ∉ busReads (decode (fetch (after roundTrip)).1) (fetch (after roundTrip)).2 :=
  ⟨rfl, rfl, by decide, by decide, by decide⟩

/-- The step of program P5: ST R0, #0 at 0x3001 overwrites the next instruction. -/
def selfModifying : State := put [(0x3001#16, 0x3000#16)] ((base.setPC 0x3001#16).writeReg .r0 0x1265#16)

theorem witness_StoreIsSeenByTheNextFetch :
    step selfModifying = .next (after selfModifying) ∧ (after selfModifying).pc ≠ (after selfModifying).cfg.kbsrAddr ∧
      busWrite (decode (fetch selfModifying).1) (fetch selfModifying).2 = some ((after selfModifying).pc, 0x1265#16) :=
  ⟨rfl, by decide, by decide⟩
theorem witness_StepKeepsMemoryCanonicalAndParameters : base.Inv ∧ ∃ t, step base = .next t :=
  ⟨⟨by decide, by decide⟩, _, rfl⟩
theorem witness_CanonicalMemoriesWithEqualCellsAreEqual :
    Memory.wf [(0x3000, 0x1234#16)] = true ∧ Memory.wf [(0x3000, 0x1234#16)] = true ∧
      ∀ a, Memory.read [(0x3000, 0x1234#16)] a = Memory.read [(0x3000, 0x1234#16)] a := ⟨by decide, by decide, fun _ => rfl⟩
theorem witness_DecodingAnEncodedInstructionGivesItBack : (Instr.ldi .r7 0x1FF#9).wellFormed = true := rfl
theorem witness_NoOpWordsDoNothing :
    (0x01FF#16).toNat < 0x0200 ∧ (0x8000 ≤ (0x8000#16).toNat ∧ (0x8FFF#16).toNat < 0x9000) ∧
      (0xD000 ≤ (0xD000#16).toNat ∧ (0xDFFF#16).toNat < 0xE000) := by decide

/-! Words for the encoding part of the nineteen forms. -/

theorem witness_AddRegisterForm :
    (0x14DC#16).extractLsb' 12 4 = 0b0001#4 ∧ (0x14DC#16).getLsbD 5 = false ∧ (0x14DC#16).extractLsb' 9 3 = Reg.bits .r2 ∧
      (0x14DC#16).extractLsb' 6 3 = Reg.bits .r3 ∧ (0x14DC#16).extractLsb' 0 3 = Reg.bits .r4 := by decide
theorem witness_AddImmediateForm :
    (0x107F#16).extractLsb' 12 4 = 0b0001#4 ∧ (0x107F#16).getLsbD 5 = true ∧ (0x107F#16).extractLsb' 9 3 = Reg.bits .r0 ∧
      (0x107F#16).extractLsb' 6 3 = Reg.bits .r1 := by decide
theorem witness_AndRegisterForm :
    (0x54C4#16).extractLsb' 12 4 = 0b0101#4 ∧ (0x54C4#16).getLsbD 5 = false ∧ (0x54C4#16).extractLsb' 9 3 = Reg.bits .r2 ∧
      (0x54C4#16).extractLsb' 6 3 = Reg.bits .r3 ∧ (0x54C4#16).extractLsb' 0 3 = Reg.bits .r4 := by decide
theorem witness_AndImmediateForm :
    (0x52B0#16).extractLsb' 12 4 = 0b0101#4 ∧ (0x52B0#16).getLsbD 5 = true ∧ (0x52B0#16).extractLsb' 9 3 = Reg.bits .r1 ∧
      (0x52B0#16).extractLsb' 6 3 = Reg.bits .r2 := by decide
theorem witness_NotComplements :
    (0x947F#16).extractLsb' 12 4 = 0b1001#4 ∧ (0x947F#16).extractLsb' 9 3 = Reg.bits .r2 ∧
      (0x947F#16).extractLsb' 6 3 = Reg.bits .r1 := by decide
theorem witness_LoadPcRelative :
    ((0x2405#16).extractLsb' 12 4 = 0b0010#4 ∧ (0x2405#16).extractLsb' 9 3 = Reg.bits .r2) ∧
      pcRel9 5#9 base ≠ base.cfg.kbsrAddr := by decide
theorem witness_LoadIndirect :
    ((0xA604#16).extractLsb' 12 4 = 0b1010#4 ∧ (0xA604#16).extractLsb' 9 3 = Reg.bits .r3) ∧
      pcRel9 4#9 base ≠ base.cfg.kbsrAddr ∧ base.cell (pcRel9 4#9 base) ≠ base.cfg.kbsrAddr := by decide
theorem witness_LoadBaseOffset :
    ((0x697F#16).extractLsb' 12 4 = 0b0110#4 ∧ (0x697F#16).extractLsb' 9 3 = Reg.bits .r4 ∧
      (0x697F#16).extractLsb' 6 3 = Reg.bits .r5) ∧ baseRel6 .r5 0x3F#6 base ≠ base.cfg.kbsrAddr := by decide
theorem witness_LoadEffectiveAddress :
    (0xE1FE#16).extractLsb' 12 4 = 0b1110#4 ∧ (0xE1FE#16).extractLsb' 9 3 = Reg.bits .r0 := by decide
theorem witness_StorePcRelative :
    (0x3602#16).extractLsb' 12 4 = 0b0011#4 ∧ (0x3602#16).extractLsb' 9 3 = Reg.bits .r3 := by decide
theorem witness_StoreIndirect :
    ((0xB403#16).extractLsb' 12 4 = 0b1011#4 ∧ (0xB403#16).extractLsb' 9 3 = Reg.bits .r2) ∧
      pcRel9 3#9 base ≠ base.cfg.kbsrAddr := by decide
theorem witness_StoreBaseOffset :
    (0x71A0#16).extractLsb' 12 4 = 0b0111#4 ∧ (0x71A0#16).extractLsb' 9 3 = Reg.bits .r0 ∧
      (0x71A0#16).extractLsb' 6 3 = Reg.bits .r6 := by decide
theorem witness_BranchOnSelectedFlag :
    (0x03FB#16).extractLsb' 12 4 = 0b0000#4 ∧
      ((0b010#3).getLsbD 2 && base.cond.getLsbD 2 || (0b010#3).getLsbD 1 && base.cond.getLsbD 1 ||
        (0b010#3).getLsbD 0 && base.cond.getLsbD 0) = true ∧
      ((0b101#3).getLsbD 2 && base.cond.getLsbD 2 || (0b101#3).getLsbD 1 && base.cond.getLsbD 1 ||
        (0b101#3).getLsbD 0 && base.cond.getLsbD 0) = false := by decide
theorem witness_JumpThroughRegister :
    (0xC1C0#16).extractLsb' 12 4 = 0b1100#4 ∧ (0xC1C0#16).extractLsb' 6 3 = Reg.bits .r7 := by decide
theorem witness_JumpToSubroutinePcRelative :
    (0x4808#16).extractLsb' 12 4 = 0b0100#4 ∧ (0x4808#16).getLsbD 11 = true := by decide
theorem witness_JumpToSubroutineThroughRegister :
    ((0x4180#16).extractLsb' 12 4 = 0b0100#4 ∧ (0x4180#16).getLsbD 11 = false ∧ (0x4180#16).extractLsb' 6 3 = Reg.bits .r6) ∧
      Reg.r6 ≠ .r7 ∧ Reg.r7 = .r7 := by decide
theorem witness_TrapLinksAndHaltsOrJumpsThroughTheTable :
    (0xF030#16).extractLsb' 12 4 = 0b1111#4 ∧ 0x25#8 = base.cfg.haltVector ∧ 0x30#8 ≠ base.cfg.haltVector ∧
      trapSlot 0x30#8 base ≠ base.cfg.kbsrAddr := by decide
theorem witness_RtiIsNoOp : (0x8FFF#16).extractLsb' 12 4 = 0b1000#4 := by decide
theorem witness_ReservedIsNoOp : (0xDABC#16).extractLsb' 12 4 = 0b1101#4 := by decide
theorem witness_JumpThroughLinkReturnsAfterTheCall :
    (∃ off, Instr.jsr 8#11 = .jsr off) ∧ (∃ b, Instr.jsrr .r6 = .jsrr b) ∧ (∃ v, Instr.trap 0x30#8 = .trap v) ∧
      (∃ t, exec (.jsr 8#11) base = .next t ∧ t.readReg .r7 = t.readReg .r7) ∧ (∃ t, exec (.jsrr .r6) base = .next t) ∧
      ∃ t, exec (.trap 0x30#8) base = .next t :=
  ⟨⟨_, rfl⟩, ⟨_, rfl⟩, ⟨_, rfl⟩, ⟨_, rfl, rfl⟩, ⟨_, rfl⟩, _, rfl⟩

end Sys2Proof.Tests
end

section
/-! PROOFS. The primitives of spec/00_scope.md section 5: sign extension (R10), sums modulo 65,536 (R12) and `setcc` (R13). -/

namespace Sys2Proof.Machine

/-! ### Sign extension -/

/-- Bit `k` of a sign extension: the field's own bit below `n`, its sign bit from there up. -/
theorem getLsbD_sext {n : Nat} (v : BitVec n) (k : Nat) :
    (sext v).getLsbD k = (decide (k < 16) && if k < n then v.getLsbD k else v.msb) :=
  BitVec.getLsbD_signExtend v

/-- The low bits of a sign extension are the field's. -/
theorem getLsbD_sext_of_lt {n : Nat} (v : BitVec n) (h : n ≤ 16) {k : Nat} (hk : k < n) :
    (sext v).getLsbD k = v.getLsbD k := by
  rw [getLsbD_sext, if_pos hk, decide_eq_true (Nat.lt_of_lt_of_le hk h), Bool.true_and]

/-- A field whose sign bit is set is filled with ones from bit `n` up. -/
theorem sext_of_msb_true {n : Nat} (v : BitVec n) (hm : v.msb = true) :
    sext v = v.setWidth 16 ||| (0xFFFF#16 <<< n) := by
  apply BitVec.eq_of_getLsbD_eq
  intro k hk
  have ones : ∀ j, j < 16 → (0xFFFF#16).getLsbD j = true := by decide
  rw [getLsbD_sext, BitVec.getLsbD_or, BitVec.getLsbD_setWidth, BitVec.getLsbD_shiftLeft]
  by_cases hn : k < n
  · simp [hk, hn]
  · simp [hk, hn, hm, ones (k - n) (by omega)]

/-- A field whose sign bit is clear passes through unchanged. -/
theorem sext_of_msb_false {n : Nat} (v : BitVec n) (hm : v.msb = false) : sext v = v.setWidth 16 :=
  BitVec.signExtend_eq_setWidth_of_msb_false hm

/-- The range of a sign-extended field of `n + 1` bits. -/
theorem sext_toInt_range {n : Nat} (v : BitVec (n + 1)) (h : n + 1 ≤ 16) :
    -2 ^ n ≤ (sext v).toInt ∧ (sext v).toInt ≤ 2 ^ n - 1 := by
  rw [sext_toInt v h]
  have hlo := BitVec.le_toInt v
  have hhi := BitVec.toInt_lt (x := v)
  rw [Nat.add_sub_cancel] at hlo hhi
  omega

/-- Settles O1: bit by bit, a sign extension is the field below bit `n` and its sign bit from there up. -/
theorem signExtensionFillsWithSignBit : Obligations.SignExtensionFillsWithSignBit := by
  refine ⟨fun n v _ hn => ?_, (sext_toInt_range · (by decide)), (sext_toInt_range · (by decide)),
    (sext_toInt_range · (by decide)), (sext_toInt_range · (by decide))⟩
  rw [← BitVec.msb_eq_getLsbD_last]
  exact ⟨sext_of_msb_true v, sext_of_msb_false v, fun _ => getLsbD_sext_of_lt v hn⟩

/-! ### Sums modulo 65,536 -/

theorem exec_addReg (dr a b : Reg) (s : State) :
    exec (.addReg dr a b) s = .next (writeResult dr (s.readReg a + s.readReg b) s) := rfl

theorem exec_addImm (dr a : Reg) (imm : BitVec 5) (s : State) :
    exec (.addImm dr a imm) s = .next (writeResult dr (s.readReg a + sext imm) s) := rfl

/-- After a result is written, the destination holds it, and it alone determines what became of the state. -/
theorem writeResult_eq_of_readReg (dr : Reg) (v : Word) (s : State) :
    writeResult dr v s = (s.writeReg dr ((writeResult dr v s).readReg dr)).setCond
      (condOf ((writeResult dr v s).readReg dr)) := by
  rw [writeResult_readReg, if_pos rfl]
  rfl

/-- Settles O2: every sum is one 16-bit addition, of two words or of a word and a sign-extended field, and ADD ends in
`writeResult`, which records the sum's 16 bits only. -/
theorem arithmeticWrapsModulo65536 : Obligations.ArithmeticWrapsModulo65536 := by
  refine ⟨fun s => ?_, fun s off => add_sext_toNat _ off (by decide), fun s off => add_sext_toNat _ off (by decide),
    fun s base off => add_sext_toNat _ off (by decide), fun s dr a b => ?_, fun s dr a imm => ?_⟩
  · rw [fetch_pc, BitVec.toNat_add]
    rfl
  · refine ⟨_, exec_addReg dr a b s, ?_, writeResult_eq_of_readReg dr _ s⟩
    rw [writeResult_readReg, if_pos rfl, BitVec.toNat_add]
  · refine ⟨_, exec_addImm dr a imm s, ?_, writeResult_eq_of_readReg dr _ s⟩
    rw [writeResult_readReg, if_pos rfl, add_sext_toNat _ imm (by decide)]

/-! ### `setcc` -/

@[simp] theorem setcc_cond (v : Word) (s : State) : (setcc v s).cond = condOf v := rfl

theorem condOf_zero : condOf 0x0000#16 = condZ := rfl

theorem condOf_of_negative {v : Word} (h : v ≠ 0x0000#16) (hs : v.getLsbD 15 = true) : condOf v = condN := by
  rw [condOf, if_neg h, if_pos hs]

theorem condOf_of_positive {v : Word} (h : v ≠ 0x0000#16) (hs : v.getLsbD 15 = false) : condOf v = condP := by
  rw [condOf, if_neg h, if_neg (ne_true_of_eq_false hs)]

/-- Settles O3: `setcc` writes `condOf` of the value to COND, and `flagsDescribe_iff` says that this is the value's one flag. -/
theorem setccGivesTheSignOfTheValue : Obligations.SetccGivesTheSignOfTheValue := by
  intro v s
  rw [setcc_cond]
  refine ⟨?_, condOf_of_negative, condOf_of_positive, (flagsDescribe_iff v _).2 rfl, by decide, rfl⟩
  rintro rfl
  exact condOf_zero

end Sys2Proof.Machine
end

section
/-! PROOFS. The register file (spec/10_state.md R20, spec/30_encoding.md R83) and the instruction cycle (R32). -/

namespace Sys2Proof.Machine

/-! ### Registers -/

/-- A 3-bit index names exactly one register: `Reg.ofBits` finds it, and no other register has its bits. -/
theorem existsUnique_reg_bits_eq (b : BitVec 3) : ∃! r : Reg, r.bits = b :=
  ⟨Reg.ofBits b, Reg.bits_ofBits b, fun _ h => Reg.bits_injective (h.trans (Reg.bits_ofBits b).symm)⟩

/-- A register write keeps every other register. -/
theorem keepsRegs_writeReg (r : Reg) (v : Word) (s : State) : KeepsRegs [r] s (s.writeReg r v) :=
  fun _ hr => State.readReg_writeReg_ne s (List.ne_of_not_mem_cons hr) v

/-- A register write changes nothing but the register file. -/
theorem writeReg_eq_setRegs (r : Reg) (v : Word) (s : State) :
    s.writeReg r v = s.setRegs (s.writeReg r v).regs := rfl

/-- Settles O4: indices and registers correspond one to one, the numbering is the table `Reg.bits`, and a write is read
back and framed by the rules above. -/
theorem registerFileGetAndSet : Obligations.RegisterFileGetAndSet :=
  ⟨existsUnique_reg_bits_eq, rfl, rfl, rfl, rfl, rfl, rfl, rfl, rfl, fun s r v =>
    ⟨State.readReg_writeReg_same s r v, keepsRegs_writeReg r v s, writeReg_eq_setRegs r v s⟩⟩

/-! ### The instruction cycle -/

/-- A halted machine has no next state. -/
theorem step_ne_next_of_halted {s : State} (h : s.run = .halted) (t : State) : step s ≠ .next t := by
  rw [step_of_halted h]
  exact nofun

/-- Settles O10: a step exists only of a running machine, and there it executes what `fetch` gives, which is the bus read
of PC and the state that read leaves, PC incremented. -/
theorem stepFetchesIncrementsAndExecutes : Obligations.StepFetchesIncrementsAndExecutes := by
  refine ⟨fun s => step_ne_next_of_halted, fun s hrun => ?_⟩
  rw [step_of_running hrun, fetch]

end Sys2Proof.Machine
end

section
/-! PROOFS. The bus write (spec/20_memory.md R55). -/

namespace Sys2Proof.Machine

/-- The written cell holds the word, whatever the address: the write makes no case of the keyboard's two. -/
@[simp] theorem memWrite_cell_same (a : Addr) (v : Word) (s : State) : (memWrite a v s).cell a = v :=
  State.cell_setCell_same s a v

theorem keepsRegs_memWrite (a : Addr) (v : Word) (s : State) : KeepsRegs [] s (memWrite a v s) :=
  fun r _ => State.setCell_readReg s a v r

/-- A write neither consumes pending characters nor polls for new ones. -/
theorem keepsKeyboard_memWrite (a : Addr) (v : Word) (s : State) : KeepsKeyboard s (memWrite a v s) :=
  ⟨State.setCell_kbq s a v, State.setCell_kbInput s a v⟩

/-- Settles O15: a bus write is `setCell` at every address, so it is the one cell's rule and the frame rules above, with
those of `setCell` for the other fields. -/
theorem busWriteStoresTheOneCell : Obligations.BusWriteStoresTheOneCell := fun s a v =>
  ⟨memWrite_cell_same a v s, keepsCells_memWrite s a v, keepsRegs_memWrite a v s, State.setCell_pc s a v,
    State.setCell_cond s a v, State.setCell_run s a v, keepsKeyboard_memWrite a v s, State.setCell_cfg s a v⟩

end Sys2Proof.Machine
end

section
/-! PROOFS. Decoding (spec/30_encoding.md R81 to R93): which words are each form, decode after encode, encode after decode, the
ignored bits and the rows of opcode_table.json. -/

namespace Sys2Proof

/-! ### Fields of a word, read from its bits -/

theorem fieldOpcode_eq {ir : Word} {o : Opcode} (h : ir.extractLsb' 12 4 = o.number) : fieldOpcode ir = o := by
  rw [fieldOpcode, h, Opcode.ofNumber_number]

theorem fieldDR_eq {ir : Word} {r : Reg} (h : ir.extractLsb' 9 3 = r.bits) : fieldDR ir = r := by
  rw [fieldDR, h, Reg.ofBits_bits]

theorem fieldSR1_eq {ir : Word} {r : Reg} (h : ir.extractLsb' 6 3 = r.bits) : fieldSR1 ir = r := by
  rw [fieldSR1, h, Reg.ofBits_bits]

theorem fieldSR2_eq {ir : Word} {r : Reg} (h : ir.extractLsb' 0 3 = r.bits) : fieldSR2 ir = r := by
  rw [fieldSR2, h, Reg.ofBits_bits]

/-! ### The words of each form (R88) -/

section Forms
variable {ir : Word} {r a b : Reg}

theorem decode_br (ho : ir.extractLsb' 12 4 = 0b0000#4) : decode ir = .br (ir.extractLsb' 9 3) (ir.extractLsb' 0 9) := by
  rw [decode, fieldOpcode_eq (o := .br) ho]
  rfl

theorem decode_addReg (ho : ir.extractLsb' 12 4 = 0b0001#4) (hi : fieldI ir = false) (hr : ir.extractLsb' 9 3 = r.bits)
    (ha : ir.extractLsb' 6 3 = a.bits) (hb : ir.extractLsb' 0 3 = b.bits) : decode ir = .addReg r a b := by
  simp [decode, fieldOpcode_eq (o := .add) ho, hi, fieldDR_eq hr, fieldSR1_eq ha, fieldSR2_eq hb]

theorem decode_addImm (ho : ir.extractLsb' 12 4 = 0b0001#4) (hi : fieldI ir = true) (hr : ir.extractLsb' 9 3 = r.bits)
    (ha : ir.extractLsb' 6 3 = a.bits) : decode ir = .addImm r a (ir.extractLsb' 0 5) := by
  simp [decode, fieldOpcode_eq (o := .add) ho, hi, fieldDR_eq hr, fieldSR1_eq ha, fieldImm5]

theorem decode_ld (ho : ir.extractLsb' 12 4 = 0b0010#4) (hr : ir.extractLsb' 9 3 = r.bits) :
    decode ir = .ld r (ir.extractLsb' 0 9) := by
  simp [decode, fieldOpcode_eq (o := .ld) ho, fieldDR_eq hr, fieldPCoffset9]

theorem decode_st (ho : ir.extractLsb' 12 4 = 0b0011#4) (hr : ir.extractLsb' 9 3 = r.bits) :
    decode ir = .st r (ir.extractLsb' 0 9) := by
  simp [decode, fieldOpcode_eq (o := .st) ho, fieldDR_eq hr, fieldPCoffset9]

theorem decode_jsr (ho : ir.extractLsb' 12 4 = 0b0100#4) (hl : fieldL ir = true) :
    decode ir = .jsr (ir.extractLsb' 0 11) := by
  simp [decode, fieldOpcode_eq (o := .jsr) ho, hl, fieldPCoffset11]

theorem decode_jsrr (ho : ir.extractLsb' 12 4 = 0b0100#4) (hl : fieldL ir = false) (ha : ir.extractLsb' 6 3 = a.bits) :
    decode ir = .jsrr a := by
  simp [decode, fieldOpcode_eq (o := .jsr) ho, hl, fieldSR1_eq ha]

theorem decode_andReg (ho : ir.extractLsb' 12 4 = 0b0101#4) (hi : fieldI ir = false) (hr : ir.extractLsb' 9 3 = r.bits)
    (ha : ir.extractLsb' 6 3 = a.bits) (hb : ir.extractLsb' 0 3 = b.bits) : decode ir = .andReg r a b := by
  simp [decode, fieldOpcode_eq (o := .and) ho, hi, fieldDR_eq hr, fieldSR1_eq ha, fieldSR2_eq hb]

theorem decode_andImm (ho : ir.extractLsb' 12 4 = 0b0101#4) (hi : fieldI ir = true) (hr : ir.extractLsb' 9 3 = r.bits)
    (ha : ir.extractLsb' 6 3 = a.bits) : decode ir = .andImm r a (ir.extractLsb' 0 5) := by
  simp [decode, fieldOpcode_eq (o := .and) ho, hi, fieldDR_eq hr, fieldSR1_eq ha, fieldImm5]

theorem decode_ldr (ho : ir.extractLsb' 12 4 = 0b0110#4) (hr : ir.extractLsb' 9 3 = r.bits)
    (ha : ir.extractLsb' 6 3 = a.bits) : decode ir = .ldr r a (ir.extractLsb' 0 6) := by
  simp [decode, fieldOpcode_eq (o := .ldr) ho, fieldDR_eq hr, fieldSR1_eq ha, fieldOffset6]

theorem decode_str (ho : ir.extractLsb' 12 4 = 0b0111#4) (hr : ir.extractLsb' 9 3 = r.bits)
    (ha : ir.extractLsb' 6 3 = a.bits) : decode ir = .str r a (ir.extractLsb' 0 6) := by
  simp [decode, fieldOpcode_eq (o := .str) ho, fieldDR_eq hr, fieldSR1_eq ha, fieldOffset6]

theorem decode_rti (ho : ir.extractLsb' 12 4 = 0b1000#4) : decode ir = .rti := by
  rw [decode, fieldOpcode_eq (o := .rti) ho]

theorem decode_not (ho : ir.extractLsb' 12 4 = 0b1001#4) (hr : ir.extractLsb' 9 3 = r.bits)
    (ha : ir.extractLsb' 6 3 = a.bits) : decode ir = .not r a := by
  simp [decode, fieldOpcode_eq (o := .not) ho, fieldDR_eq hr, fieldSR1_eq ha]

theorem decode_ldi (ho : ir.extractLsb' 12 4 = 0b1010#4) (hr : ir.extractLsb' 9 3 = r.bits) :
    decode ir = .ldi r (ir.extractLsb' 0 9) := by
  simp [decode, fieldOpcode_eq (o := .ldi) ho, fieldDR_eq hr, fieldPCoffset9]

theorem decode_sti (ho : ir.extractLsb' 12 4 = 0b1011#4) (hr : ir.extractLsb' 9 3 = r.bits) :
    decode ir = .sti r (ir.extractLsb' 0 9) := by
  simp [decode, fieldOpcode_eq (o := .sti) ho, fieldDR_eq hr, fieldPCoffset9]

theorem decode_jmp (ho : ir.extractLsb' 12 4 = 0b1100#4) (ha : ir.extractLsb' 6 3 = a.bits) : decode ir = .jmp a := by
  simp [decode, fieldOpcode_eq (o := .jmp) ho, fieldSR1_eq ha]

theorem decode_reserved (ho : ir.extractLsb' 12 4 = 0b1101#4) : decode ir = .reserved := by
  rw [decode, fieldOpcode_eq (o := .res) ho]

theorem decode_lea (ho : ir.extractLsb' 12 4 = 0b1110#4) (hr : ir.extractLsb' 9 3 = r.bits) :
    decode ir = .lea r (ir.extractLsb' 0 9) := by
  simp [decode, fieldOpcode_eq (o := .lea) ho, fieldDR_eq hr, fieldPCoffset9]

theorem decode_trap (ho : ir.extractLsb' 12 4 = 0b1111#4) : decode ir = .trap (ir.extractLsb' 0 8) := by
  rw [decode, fieldOpcode_eq (o := .trap) ho]
  rfl

end Forms

/-! ### Decode after encode -/

/-- Bit `k` of a placed field, at a position of the word. -/
theorem getElem_place {n : Nat} (lo k : Nat) (v : BitVec n) (hk : k < 16) :
    (place lo v)[k] = (decide (lo ≤ k) && v.getLsbD (k - lo)) := by
  rw [← BitVec.getLsbD_eq_getElem, getLsbD_place, decide_eq_true hk, Bool.true_and]

/-- An encoded instruction decodes to itself, layout by layout: the opcode's number, the form bit and every operand are read
back from where the encoder placed them, and no other piece of the word covers those places. -/
theorem decode_encode (i : Instr) : decode (encode i) = i := by
  cases i with
  | addReg | andReg =>
    simp [encode, decode, fieldOpcode, fieldI, fieldDR, fieldSR1, fieldSR2, extract_or, extract_place_same,
      extract_place_apart, getElem_place]
  | addImm | andImm =>
    simp [encode, decode, fieldOpcode, fieldI, fieldDR, fieldSR1, fieldImm5, extract_or, extract_place_same,
      extract_place_apart, getElem_place]
  | jsr | jsrr =>
    simp [encode, decode, fieldOpcode, fieldL, fieldSR1, fieldPCoffset11, extract_or, extract_place_same,
      extract_place_apart, getElem_place]
  | ld | st | ldi | sti | lea | br =>
    simp [encode, decode, fieldOpcode, fieldDR, fieldNzp, fieldPCoffset9, extract_or, extract_place_same,
      extract_place_apart]
  | ldr | str | not | jmp =>
    simp [encode, decode, fieldOpcode, fieldDR, fieldSR1, fieldOffset6, extract_or, extract_place_same,
      extract_place_apart]
  | trap | rti | reserved =>
    simp [encode, decode, fieldOpcode, fieldTrapvect8, extract_or, extract_place_same, extract_place_apart]

/-- Settles O28: `decode_encode`, which needs no well-formedness. -/
theorem decodingAnEncodedInstructionGivesItBack : Obligations.DecodingAnEncodedInstructionGivesItBack :=
  fun i _ => decode_encode i

end Sys2Proof
end

section
/-! PROOFS. Encode after decode, the ignored bits (spec/30_encoding.md R91) and the rows of opcode_table.json (R88 to R90). -/

namespace Sys2Proof

open Machine

/-! ### A word is the sum of its fields -/

/-- A field put back where it was read is the word with all other bits cleared. -/
theorem place_extract (w : Word) (lo n : Nat) :
    place lo (w.extractLsb' lo n) = w &&& (BitVec.allOnes n).setWidth 16 <<< lo := by
  apply BitVec.eq_of_getLsbD_eq
  intro k hk
  rw [← place, getLsbD_place, BitVec.getLsbD_and, getLsbD_place, BitVec.getLsbD_extractLsb', BitVec.getLsbD_allOnes]
  by_cases h : lo ≤ k
  · simp [h, hk, Bool.and_comm]
  · simp [h]

theorem place_zero (lo n : Nat) : place lo 0#n = 0#16 := by
  rw [place, BitVec.setWidth_zero, BitVec.zero_shiftLeft]

theorem number_fieldOpcode (w : Word) : (fieldOpcode w).number = w.extractLsb' 12 4 := Opcode.number_ofNumber _
theorem bits_fieldDR (w : Word) : (fieldDR w).bits = w.extractLsb' 9 3 := Reg.bits_ofBits _
theorem bits_fieldSR1 (w : Word) : (fieldSR1 w).bits = w.extractLsb' 6 3 := Reg.bits_ofBits _
theorem bits_fieldSR2 (w : Word) : (fieldSR2 w).bits = w.extractLsb' 0 3 := Reg.bits_ofBits _

/-- One bit of a word as a field of width one. -/
theorem extract_one (w : Word) (k : Nat) : w.extractLsb' k 1 = BitVec.ofBool (w.getLsbD k) := by
  ext i hi
  obtain rfl : i = 0 := by omega
  simp

theorem place_opcode (w : Word) : place 12 (fieldOpcode w).number = w &&& 0xF000#16 := by
  rw [number_fieldOpcode, place_extract]
  rfl

theorem place_fieldI (w : Word) : place 5 (BitVec.ofBool (fieldI w)) = w &&& 0x0020#16 := by
  rw [fieldI, ← extract_one, place_extract]
  rfl

theorem place_fieldL (w : Word) : place 11 (BitVec.ofBool (fieldL w)) = w &&& 0x0800#16 := by
  rw [fieldL, ← extract_one, place_extract]
  rfl

/-! ### Encode after decode -/

/-- Encoding what a word decodes to gives the word back but for the ignored bits: each piece the encoder places is the word's
own field, and the pieces cover every bit that is not ignored. -/
theorem encode_decode (w : Word) :
    encode (decode w) &&& ~~~ ignoredBits (decode w) = w &&& ~~~ ignoredBits (decode w) := by
  have ho := place_opcode w
  have hone : place 0 0x3F#6 = 0x003F#16 := rfl
  cases hop : fieldOpcode w <;> rw [hop] at ho
  case add | and =>
    cases hb : fieldI w
    · have hi : place 5 0#1 = w &&& 0x0020#16 := by rw [← place_fieldI, hb]; rfl
      simp [decode, hop, hb, encode, ignoredBits, ho, hi, place_extract, place_zero, bits_fieldDR, bits_fieldSR1, bits_fieldSR2,
        ← BitVec.and_or_distrib_left, BitVec.and_assoc]
    · have hi : place 5 1#1 = w &&& 0x0020#16 := by rw [← place_fieldI, hb]; rfl
      simp [decode, hop, hb, encode, ignoredBits, ho, hi, place_extract, bits_fieldDR, bits_fieldSR1, fieldImm5,
        ← BitVec.and_or_distrib_left, BitVec.and_assoc]
  case jsr =>
    cases hb : fieldL w
    · have hl : place 11 0#1 = w &&& 0x0800#16 := by rw [← place_fieldL, hb]; rfl
      simp [decode, hop, hb, encode, ignoredBits, ho, hl, place_extract, place_zero, bits_fieldSR1,
        ← BitVec.and_or_distrib_left, BitVec.and_assoc]
    · have hl : place 11 1#1 = w &&& 0x0800#16 := by rw [← place_fieldL, hb]; rfl
      simp [decode, hop, hb, encode, ignoredBits, ho, hl, place_extract, fieldPCoffset11,
        ← BitVec.and_or_distrib_left, BitVec.and_assoc]
  all_goals
    simp [decode, hop, encode, ignoredBits, ho, hone, place_extract, place_zero, bits_fieldDR, bits_fieldSR1, fieldPCoffset9,
      fieldOffset6, fieldNzp, fieldTrapvect8, BitVec.and_or_distrib_right, ← BitVec.and_or_distrib_left, BitVec.and_assoc]

/-! ### Ignored bits -/

/-- Two words that agree outside `m` have the same bit wherever `m` is clear. -/
theorem getLsbD_eq_of_and_not_eq {w w' m : Word} (h : w &&& ~~~ m = w' &&& ~~~ m) {k : Nat} (hk : k < 16)
    (hm : m.getLsbD k = false) : w.getLsbD k = w'.getLsbD k := by
  have hw := congrArg (BitVec.getLsbD · k) h
  simpa only [BitVec.getLsbD_and, BitVec.getLsbD_not, hm, Bool.not_false, Bool.and_true, decide_eq_true hk] using hw

/-- Two words that agree outside `m` have the same field wherever `m` is clear. -/
theorem extract_eq_of_and_not_eq {w w' m : Word} (h : w &&& ~~~ m = w' &&& ~~~ m) {lo n : Nat} (hn : lo + n ≤ 16)
    (hm : m.extractLsb' lo n = 0#n) : w.extractLsb' lo n = w'.extractLsb' lo n := by
  apply BitVec.eq_of_getLsbD_eq
  intro k hk
  have hz := congrArg (BitVec.getLsbD · k) hm
  simp only [BitVec.getLsbD_extractLsb', hk, decide_true, Bool.true_and, BitVec.getLsbD_zero] at hz ⊢
  exact getLsbD_eq_of_and_not_eq h (by omega) hz

/-- No form ignores a bit of the opcode. -/
theorem extract_ignoredBits_opcode (i : Instr) : (ignoredBits i).extractLsb' 12 4 = 0#4 := by
  cases i <;> simp [ignoredBits]

/-- A word with other ignored bits decodes alike: the opcode, the form bits and every field lie outside them. -/
theorem decode_eq_of_and_not_ignoredBits_eq {w w' : Word}
    (h : w &&& ~~~ ignoredBits (decode w) = w' &&& ~~~ ignoredBits (decode w)) : decode w = decode w' := by
  have field := fun lo n => extract_eq_of_and_not_eq h (lo := lo) (n := n)
  have bit := fun k => getLsbD_eq_of_and_not_eq h (k := k)
  have hop : fieldOpcode w' = fieldOpcode w :=
    congrArg Opcode.ofNumber (field 12 4 (by decide) (extract_ignoredBits_opcode _)).symm
  cases ho : fieldOpcode w
  case add | and =>
    cases hb : fieldI w <;>
      simp only [decode, ho, hb, ignoredBits, if_true, if_false, Bool.false_eq_true] at field bit <;>
      have hi : fieldI w' = fieldI w := (bit 5 (by decide) (by decide)).symm <;>
      simp [decode, ho, hop, hb, hi, fieldDR, fieldSR1, fieldSR2, fieldImm5, field 9 3, field 6 3, field 0 3, field 0 5]
  case jsr =>
    cases hb : fieldL w <;>
      simp only [decode, ho, hb, ignoredBits, if_true, if_false, Bool.false_eq_true] at field bit <;>
      have hl : fieldL w' = fieldL w := (bit 11 (by decide) (by decide)).symm <;>
      simp [decode, ho, hop, hb, hl, fieldSR1, fieldPCoffset11, field 6 3, field 0 11]
  all_goals
    simp only [decode, ho, ignoredBits] at field
    simp [decode, ho, hop, fieldNzp, fieldDR, fieldSR1, fieldPCoffset9, fieldOffset6, fieldTrapvect8, field 9 3, field 6 3,
      field 0 9, field 0 6, field 0 8]

/-- Two words that differ in no bit of `m` are equal there. -/
theorem xor_and_eq_zero_iff (w w' m : Word) : (w ^^^ w') &&& m = 0#16 ↔ w &&& m = w' &&& m := by
  have hd : (w ^^^ w') &&& m = (w &&& m) ^^^ (w' &&& m) := by
    ext k hk
    simp [Bool.and_xor_distrib_right]
  rw [hd, BitVec.xor_eq_zero_iff]

/-- Settles O29: what a word decodes to and the word itself agree outside the ignored bits, so either determines the other. -/
theorem wordsDecodeAlikeUpToIgnoredBits : Obligations.WordsDecodeAlikeUpToIgnoredBits := by
  intro w w'
  rw [xor_and_eq_zero_iff]
  refine ⟨fun h => ?_, decode_eq_of_and_not_ignoredBits_eq⟩
  rw [← encode_decode w, h, encode_decode w']

/-! ### Rows -/

/-- The (mask, match) pairs of the nineteen rows of opcode_table.json, in the order of `Instr`. -/
def tableRows : List (Word × Word) :=
  [(0xF000, 0x0000), (0xF020, 0x1000), (0xF020, 0x1020), (0xF000, 0x2000), (0xF000, 0x3000), (0xF800, 0x4800),
    (0xF800, 0x4000), (0xF020, 0x5000), (0xF020, 0x5020), (0xF000, 0x6000), (0xF000, 0x7000), (0xF000, 0x8000),
    (0xF000, 0x9000), (0xF000, 0xA000), (0xF000, 0xB000), (0xF000, 0xC000), (0xF000, 0xD000), (0xF000, 0xE000),
    (0xF000, 0xF000)]

theorem row_mem_tableRows (i : Instr) : (rowMask i, rowMatch i) ∈ tableRows := by
  cases i <;> simp [tableRows, rowMask, rowMatch]

/-- Any two rows contradict each other in a bit that both fix. -/
theorem tableRows_pairwise : tableRows.Pairwise fun p q => p.2 &&& q.1 ≠ q.2 &&& p.1 := by
  decide

/-- Rows whose fixed bits do not contradict each other are the same row. -/
theorem row_eq_of_compatible {i j : Instr} (h : rowMatch i &&& rowMask j = rowMatch j &&& rowMask i) :
    (rowMask i, rowMatch i) = (rowMask j, rowMatch j) := by
  have : Std.Symm fun p q : Word × Word => p.2 &&& q.1 ≠ q.2 &&& p.1 := ⟨fun _ _ => Ne.symm⟩
  by_contra hne
  exact tableRows_pairwise.forall (row_mem_tableRows i) (row_mem_tableRows j) hne h

/-- A row's match lies within its mask. -/
theorem rowMatch_and_rowMask (i : Instr) : rowMatch i &&& rowMask i = rowMatch i := by
  cases i <;> simp only [rowMatch, rowMask] <;> decide

/-- A word has the fixed bits of the row it decodes to. -/
theorem and_rowMask_decode (w : Word) : w &&& rowMask (decode w) = rowMatch (decode w) := by
  have ho := place_opcode w
  cases hop : fieldOpcode w <;> rw [hop] at ho
  case add | and =>
    have hm : w &&& 0xF020#16 = w &&& 0xF000#16 ||| w &&& 0x0020#16 := by rw [← BitVec.and_or_distrib_left]; rfl
    cases hb : fieldI w <;>
      · simp only [decode, hop, hb, rowMask, rowMatch, if_true, if_false, Bool.false_eq_true]
        rw [hm, ← ho, ← place_fieldI, hb]
        rfl
  case jsr =>
    have hm : w &&& 0xF800#16 = w &&& 0xF000#16 ||| w &&& 0x0800#16 := by rw [← BitVec.and_or_distrib_left]; rfl
    cases hb : fieldL w <;>
      · simp only [decode, hop, hb, rowMask, rowMatch, if_true, if_false, Bool.false_eq_true]
        rw [hm, ← ho, ← place_fieldL, hb]
        rfl
  all_goals
    simp only [decode, hop, rowMask, ← ho]
    rfl

/-- Settles O30: the word has the fixed bits of its own row, and the rows exclude one another. -/
theorem everyWordMatchesExactlyItsDecodedRow : Obligations.EveryWordMatchesExactlyItsDecodedRow := by
  intro w i
  constructor
  · intro h
    refine congrArg Prod.snd (row_eq_of_compatible ?_)
    rw [← h, ← and_rowMask_decode w, BitVec.and_assoc, BitVec.and_assoc, BitVec.and_comm (rowMask i)]
  · intro h
    have hrow : (rowMask i, rowMatch i) = (rowMask (decode w), rowMatch (decode w)) :=
      row_eq_of_compatible (by rw [h, rowMatch_and_rowMask, ← h, rowMatch_and_rowMask])
    rw [show rowMask i = rowMask (decode w) from congrArg Prod.fst hrow, h]
    exact and_rowMask_decode w

end Sys2Proof
end

section
/-! PROOFS. What every instruction keeps, from the five endings of Laws/Exec.lean: completion (spec/60_exceptions.md R150), the
flags (spec/10_state.md R28, R29), RUN (R31), PC (R24), the memory invariant and the parameters. -/

namespace Sys2Proof.Machine

/-! ### Completion -/

/-- Every instruction takes a next state in every state; only BR has to be asked which. -/
theorem exec_completes (i : Instr) (s : State) : ∃ t, exec i s = .next t := by
  cases i
  case br nzp off =>
    rw [exec, execBr]
    split <;> exact ⟨_, rfl⟩
  all_goals exact ⟨_, rfl⟩

/-- A running machine steps. -/
theorem step_completes {s : State} (h : s.run = .running) : ∃ t, step s = .next t := by
  rw [step_of_running h]
  exact exec_completes _ _

/-- A step is one of two things: the stop of a halted machine, or a running machine's next state. -/
theorem step_cases (s : State) :
    (s.run = .halted ∧ step s = .fault .halted) ∨ (s.run = .running ∧ ∃ t, step s = .next t) := by
  cases h : s.run with
  | halted => exact .inl ⟨rfl, step_of_halted h⟩
  | running => exact .inr ⟨rfl, step_completes h⟩

/-- Settles O12: an instruction's body completes in every state, so only a halted machine stops. -/
theorem everyInstructionCompletesInEveryState : Obligations.EveryInstructionCompletesInEveryState := by
  refine ⟨exec_completes, fun w => exec_completes (decode w), fun s f => ?_, fun s r => ?_⟩
  · cases f
    obtain ⟨hr, hs⟩ | ⟨hr, t, hs⟩ := step_cases s <;> simp [hr, hs]
  · obtain ⟨-, hs⟩ | ⟨-, t, hs⟩ := step_cases s <;> simp [hs]

/-! ### Flags -/

/-- An instruction of R29's list ends in its result and the result's flag; every other leaves COND alone. -/
theorem exec_flags {i : Instr} {s t : State} (h : exec i s = .next t) :
    (∃ dr v, flagDest i = some dr ∧ t = writeResult dr v (afterReads i s)) ∨ (flagDest i = none ∧ t.cond = s.cond) := by
  cases exec_ending h with
  | result dr v hd => exact .inl ⟨dr, v, hd, rfl⟩
  | store a v hd => exact .inr ⟨hd, afterReads_cond i s⟩
  | jump p hd => exact .inr ⟨hd, rfl⟩
  | call p hd => exact .inr ⟨hd, afterReads_cond i s⟩
  | halt hi hd => exact .inr ⟨hd, rfl⟩

/-- Settles O7: a result is written with its flag, so `setcc` of the destination's value would change nothing. -/
theorem flagsWrittenOnlyByTheListedInstructions : Obligations.FlagsWrittenOnlyByTheListedInstructions := by
  intro i s t h
  obtain ⟨dr, v, hd, rfl⟩ | ⟨hd, hc⟩ := exec_flags h <;> rw [hd]
  · refine ⟨?_, nofun⟩
    rintro _ ⟨⟩
    rw [writeResult_readReg, if_pos rfl]
    exact ⟨(flagsDescribe_iff v _).2 rfl, rfl⟩
  · exact ⟨nofun, fun _ => hc⟩

theorem condOneHot_of_flagDest {i : Instr} {dr : Reg} {s t : State} (hd : flagDest i = some dr) (h : exec i s = .next t) :
    CondOneHot t.cond := by
  obtain ⟨_, v, -, rfl⟩ | ⟨hn, -⟩ := exec_flags h
  · exact condOneHot_condOf v
  · simp [hd] at hn

theorem step_keeps_condOneHot {s t : State} (h : step s = .next t) (hc : CondOneHot s.cond) : CondOneHot t.cond := by
  obtain ⟨-, h⟩ := step_eq_next.1 h
  obtain ⟨dr, v, hd, -⟩ | ⟨-, ht⟩ := exec_flags h
  · exact condOneHot_of_flagDest hd h
  · rw [ht, fetch_cond]
    exact hc

/-- What every step keeps, every run keeps. -/
theorem Steps.keeps {P : State → Prop} (hstep : ∀ {s t}, step s = .next t → P s → P t) {s t : State} (h : Steps s t)
    (hs : P s) : P t := by
  induction h with
  | refl => exact hs
  | tail _ ht ih => exact hstep ht ih

/-- Settles O8: every step keeps one flag set, by a new result's flag or by leaving COND alone. -/
theorem exactlyOneFlagForEver : Obligations.ExactlyOneFlagForEver :=
  ⟨fun _ _ _ _ => condOneHot_of_flagDest, fun _ _ h => h.keeps (P := fun s => CondOneHot s.cond) step_keeps_condOneHot⟩

/-! ### The memory invariant and the parameters -/

theorem exec_cfg {i : Instr} {s t : State} (h : exec i s = .next t) : t.cfg = s.cfg := by
  cases exec_ending h with
  | result | store | call => exact afterReads_cfg i s
  | jump | halt => rfl

/-- Bus reads, bus writes and nothing else touch memory, and both keep it canonical. -/
theorem exec_keeps_wf {i : Instr} {s t : State} (h : exec i s = .next t) (hm : s.mem.wf = true) : t.mem.wf = true := by
  cases exec_ending h with
  | result | call => exact wf_afterReads i s hm
  | store a v => exact State.wf_setCell (wf_afterReads i s hm) a v
  | jump | halt => exact hm

/-- Settles O25: the fetch's bus read and the instruction keep the canonical form and the parameters. -/
theorem stepKeepsMemoryCanonicalAndParameters : Obligations.StepKeepsMemoryCanonicalAndParameters := by
  intro s t ⟨hm, hc⟩ h
  obtain ⟨-, h⟩ := step_eq_next.1 h
  have hcfg : t.cfg = s.cfg := (exec_cfg h).trans (fetch_cfg s)
  exact ⟨⟨exec_keeps_wf h (readEffect_wf s s.pc hm), hcfg ▸ hc⟩, hcfg⟩

/-- Settles O26: no cell is listed at reset, and 0xFE00 is not 0xFE02. -/
theorem resetMeetsTheMemoryInvariant : Obligations.ResetMeetsTheMemoryInvariant :=
  ⟨Memory.wf_nil, by decide⟩

/-- Settles O14: each field is `State.launch`'s argument of that name. -/
theorem resetEstablishesTheLaunchState : Obligations.ResetEstablishesTheLaunchState :=
  ⟨fun s gpr cond image => ⟨State.launch_pc s.cfg gpr cond image s.kbq s.kbInput,
    State.launch_run s.cfg gpr cond image s.kbq s.kbInput, rfl, rfl, rfl, ⟨rfl, rfl⟩, rfl⟩, rfl, rfl, rfl⟩

/-! ### RUN -/

/-- The halt-trap halts; every other instruction leaves RUN alone. -/
theorem exec_run {i : Instr} {s t : State} (h : exec i s = .next t) :
    (isHaltTrap i s ∧ t.run = .halted) ∨ (¬ isHaltTrap i s ∧ t.run = s.run) := by
  have not_halt : flagDest i ≠ none ∨ busWrite i s ≠ none ∨ regWrites i = [] → ¬ isHaltTrap i s := by
    rintro hk rfl
    simp [flagDest, busWrite, regWrites] at hk
  cases exec_ending h with
  | result dr v hd => exact .inr ⟨not_halt (.inl (by simp [hd])), afterReads_run i s⟩
  | store a v _ hw => exact .inr ⟨not_halt (.inr (.inl (by simp [hw]))), afterReads_run i s⟩
  | jump p _ _ _ hn => exact .inr ⟨not_halt (.inr (.inr hn)), rfl⟩
  | call p _ _ _ _ hh => exact .inr ⟨hh, afterReads_run i s⟩
  | halt hi => exact .inl ⟨hi, rfl⟩

end Sys2Proof.Machine
end

section
/-! PROOFS. What an instruction does not look at: RUN (spec/10_state.md R31), COND (R30), PC (R24), registers it does not read
(R23). Each is a change of the state before that comes out, unchanged or overwritten, in the state after. -/

namespace Sys2Proof.Machine

/-! ### Reads pass a change of RUN, COND, PC or a register through -/

theorem memRead_setRun (a : Addr) (r : RunState) (s : State) :
    memRead a (s.setRun r) = ((memRead a s).1, (memRead a s).2.setRun r) := by
  simp [memRead, readEffect_setRun]

theorem memRead_setCond (a : Addr) (c : BitVec 3) (s : State) :
    memRead a (s.setCond c) = ((memRead a s).1, (memRead a s).2.setCond c) := by
  simp [memRead, readEffect_setCond]

theorem memRead_setPC (a p : Addr) (s : State) :
    memRead a (s.setPC p) = ((memRead a s).1, (memRead a s).2.setPC p) := by
  simp [memRead, readEffect_setPC]

theorem memRead_writeReg (a : Addr) (r : Reg) (v : Word) (s : State) :
    memRead a (s.writeReg r v) = ((memRead a s).1, (memRead a s).2.writeReg r v) := by
  simp [memRead, readEffect_writeReg]

@[simp] theorem pcRel9_setRun (off : BitVec 9) (r : RunState) (s : State) : pcRel9 off (s.setRun r) = pcRel9 off s := rfl
@[simp] theorem pcRel9_setCond (off : BitVec 9) (c : BitVec 3) (s : State) : pcRel9 off (s.setCond c) = pcRel9 off s := rfl
@[simp] theorem pcRel9_writeReg (off : BitVec 9) (r : Reg) (v : Word) (s : State) :
    pcRel9 off (s.writeReg r v) = pcRel9 off s := rfl
@[simp] theorem baseRel6_setRun (base : Reg) (off : BitVec 6) (r : RunState) (s : State) :
    baseRel6 base off (s.setRun r) = baseRel6 base off s := rfl
@[simp] theorem baseRel6_setCond (base : Reg) (off : BitVec 6) (c : BitVec 3) (s : State) :
    baseRel6 base off (s.setCond c) = baseRel6 base off s := rfl
@[simp] theorem writeResult_setRun (dr : Reg) (v : Word) (r : RunState) (s : State) :
    writeResult dr v (s.setRun r) = (writeResult dr v s).setRun r := rfl
@[simp] theorem writeResult_setCond (dr : Reg) (v : Word) (c : BitVec 3) (s : State) :
    writeResult dr v (s.setCond c) = writeResult dr v s := rfl

/-! ### The instructions as equations -/

theorem exec_andReg (dr a b : Reg) (s : State) :
    exec (.andReg dr a b) s = .next (writeResult dr (s.readReg a &&& s.readReg b) s) := rfl

theorem exec_andImm (dr a : Reg) (imm : BitVec 5) (s : State) :
    exec (.andImm dr a imm) s = .next (writeResult dr (s.readReg a &&& sext imm) s) := rfl

theorem exec_not (dr a : Reg) (s : State) : exec (.not dr a) s = .next (writeResult dr (~~~ s.readReg a) s) := rfl

theorem exec_lea (dr : Reg) (off : BitVec 9) (s : State) :
    exec (.lea dr off) s = .next (writeResult dr (pcRel9 off s) s) := rfl

theorem exec_ld (dr : Reg) (off : BitVec 9) (s : State) :
    exec (.ld dr off) s = .next (writeResult dr (memRead (pcRel9 off s) s).1 (memRead (pcRel9 off s) s).2) := rfl

theorem exec_ldr (dr base : Reg) (off : BitVec 6) (s : State) :
    exec (.ldr dr base off) s =
      .next (writeResult dr (memRead (baseRel6 base off s) s).1 (memRead (baseRel6 base off s) s).2) := rfl

theorem exec_ldi (dr : Reg) (off : BitVec 9) (s : State) :
    exec (.ldi dr off) s =
      .next (writeResult dr (memRead (memRead (pcRel9 off s) s).1 (memRead (pcRel9 off s) s).2).1
        (memRead (memRead (pcRel9 off s) s).1 (memRead (pcRel9 off s) s).2).2) := rfl

theorem exec_st (sr : Reg) (off : BitVec 9) (s : State) :
    exec (.st sr off) s = .next (memWrite (pcRel9 off s) (s.readReg sr) s) := rfl

theorem exec_str (sr base : Reg) (off : BitVec 6) (s : State) :
    exec (.str sr base off) s = .next (memWrite (baseRel6 base off s) (s.readReg sr) s) := rfl

/-- The pointer's read keeps the source register, so it does not matter that STI reads that register after it. -/
theorem exec_sti (sr : Reg) (off : BitVec 9) (s : State) :
    exec (.sti sr off) s =
      .next (memWrite (memRead (pcRel9 off s) s).1 (s.readReg sr) (memRead (pcRel9 off s) s).2) := by
  rw [← readEffect_readReg s (pcRel9 off s) sr]
  rfl

theorem exec_br (nzp : BitVec 3) (off : BitVec 9) (s : State) :
    exec (.br nzp off) s = .next (if branchTaken nzp s = true then s.setPC (pcRel9 off s) else s) := by
  rw [exec, execBr]
  split <;> rfl

theorem exec_jmp (base : Reg) (s : State) : exec (.jmp base) s = .next (s.setPC (s.readReg base)) := rfl

theorem exec_jsr (off : BitVec 11) (s : State) :
    exec (.jsr off) s = .next ((linkReturn s).setPC (pcRel11 off s)) := rfl

theorem exec_jsrr (base : Reg) (s : State) :
    exec (.jsrr base) s = .next ((linkReturn s).setPC ((linkReturn s).readReg base)) := rfl

theorem exec_trap_halt (s : State) : exec (.trap s.cfg.haltVector) s = .next ((linkReturn s).setRun .halted) := by
  rw [exec, execTrap, trapEnter, if_pos rfl]

theorem exec_trap_of_ne {vector : BitVec 8} {s : State} (h : vector ≠ s.cfg.haltVector) :
    exec (.trap vector) s = .next
      ((linkReturn (memRead (trapSlot vector s) s).2).setPC (memRead (trapSlot vector s) s).1) := by
  obtain ⟨he, -⟩ | ⟨-, ht⟩ := trapEnter_cases s vector
  · exact absurd he h
  · exact congrArg Host.Outcome.next ht

theorem exec_rti (s : State) : exec .rti s = .next s := rfl

theorem exec_reserved (s : State) : exec .reserved s = .next s := rfl

/-! ### RUN -/

/-- Every instruction but the halt-trap carries any RUN through. -/
theorem exec_setRun {i : Instr} {s t : State} (r : RunState) (hh : ¬ isHaltTrap i s) (h : exec i s = .next t) :
    exec i (s.setRun r) = .next (t.setRun r) := by
  cases i with
  | br nzp off =>
    rw [exec_br] at h ⊢
    cases h
    rw [apply_ite (State.setRun r)]
    rfl
  | trap vector =>
    have hv : vector ≠ s.cfg.haltVector := fun e => hh (congrArg Instr.trap e)
    rw [exec_trap_of_ne hv] at h
    cases h
    rw [exec_trap_of_ne (s := s.setRun r) hv, memRead_setRun]
    rfl
  | ld | ldr | ldi | sti =>
    simp only [exec_ld, exec_ldr, exec_ldi, exec_sti, memRead_setRun, pcRel9_setRun, baseRel6_setRun, writeResult_setRun] at h ⊢
    cases h
    rfl
  | _ =>
    cases h
    rfl

/-- Settles O11: of all instructions the halt-trap alone touches RUN, and there is no step from a halted state. -/
theorem onlyTheHaltTrapStopsTheMachine : Obligations.OnlyTheHaltTrapStopsTheMachine := by
  refine ⟨fun s hrun => ?_, fun s => step_ne_next_of_halted, fun s t hs hr => ?_, fun i s t r h => ?_, fun s => ?_⟩
  · obtain ⟨t, ht⟩ := step_completes hrun
    refine ⟨t, ht, ?_⟩
    obtain ⟨hh, hr⟩ | ⟨hh, hr⟩ := exec_run (step_eq_next.1 ht).2
    · exact iff_of_true hr hh
    · exact iff_of_false (by simp [hr, hrun]) hh
  · exact hs.keeps (P := (· = s)) (fun {u v} hstep hu => absurd hstep (step_ne_next_of_halted (hu ▸ hr) v)) rfl
  · by_cases hh : isHaltTrap i s
    · obtain rfl := hh
      rw [exec_trap_halt] at h
      cases h
      exact ⟨_, exec_trap_halt (s.setRun r), rfl, .inl rfl⟩
    · obtain ⟨hi, -⟩ | ⟨-, hr⟩ := exec_run h
      · exact absurd hi hh
      · exact ⟨_, exec_setRun r hh h, State.setRun_same t, .inr ⟨hr, rfl⟩⟩
  · rw [State.runningOut, decide_eq_true_iff]

/-! ### COND -/

/-- Settles O9: no instruction but BR asks for COND; one of R29's list overwrites it, the others carry it through. -/
theorem conditionFlagsReadOnlyByBranch : Obligations.ConditionFlagsReadOnlyByBranch := by
  intro i s t c hbr h
  cases i with
  | br nzp off => exact absurd rfl (hbr nzp off)
  | trap vector =>
    by_cases hv : vector = s.cfg.haltVector
    · subst hv
      rw [exec_trap_halt] at h
      cases h
      exact exec_trap_halt (s.setCond c)
    · rw [exec_trap_of_ne hv] at h
      cases h
      rw [exec_trap_of_ne (s := s.setCond c) hv, memRead_setCond]
      rfl
  | ld | ldr | ldi | sti =>
    simp only [exec_ld, exec_ldr, exec_ldi, exec_sti, memRead_setCond, pcRel9_setCond, baseRel6_setCond, writeResult_setCond] at h ⊢
    cases h
    rfl
  | _ =>
    cases h
    rfl

/-! ### PC -/

/-- The body of an instruction that is not on R24's list leaves PC alone. -/
theorem exec_pc {i : Instr} {s t : State} (h : exec i s = .next t) (hw : writesPC i = false) : t.pc = s.pc := by
  cases exec_ending h with
  | result | store => exact afterReads_pc i s
  | jump p _ _ _ _ hp =>
    obtain hp | rfl := hp
    · simp [hw] at hp
    · rfl
  | call _ _ _ _ hp => simp [hw] at hp
  | halt => rfl

/-- An instruction that does not read PC does the same at another PC, which it carries through or overwrites. -/
theorem exec_setPC {i : Instr} {s t : State} (p : Addr) (hr : readsPC i = false) (h : exec i s = .next t) :
    exec i (s.setPC p) = .next (if writesPC i then t else t.setPC p) := by
  cases i with
  | ld | ldi | lea | st | sti | br | jsr | jsrr | trap => simp [readsPC] at hr
  | ldr dr base off =>
    cases h
    rw [exec_ldr, memRead_setPC]
    rfl
  | _ =>
    cases h
    rfl

/-- Settles O6: by `exec_pc` and `exec_setPC`; BR and the halt-trap, which `writesPC` lists, by their own equations. -/
theorem programCounterReadAndWrittenAsListed : Obligations.ProgramCounterReadAndWrittenAsListed := by
  refine ⟨fun s => step_completes, fun s => ⟨rfl, fetch_pc s⟩, fun i s t => exec_pc, fun nzp off s t h hn => ?_,
    fun s t h => ?_, fun i s t p h hr => exec_setPC p hr h⟩
  · rw [exec_br, branchTaken, hn] at h
    cases h
    rfl
  · rw [exec_trap_halt] at h
    cases h
    rfl

/-! ### Registers -/

theorem regWrites_of_flagDest {i : Instr} {dr : Reg} (h : flagDest i = some dr) : regWrites i = [dr] := by
  cases i <;> simp_all [flagDest, regWrites]

/-- Every ending writes only the registers of R23's list. -/
theorem keepsRegs_exec {i : Instr} {s t : State} (h : exec i s = .next t) : KeepsRegs (regWrites i) s t := by
  intro r hr
  cases exec_ending h with
  | result dr v hd =>
    rw [regWrites_of_flagDest hd] at hr
    exact (keepsRegs_writeResult _ dr v r hr).trans (afterReads_readReg i s r)
  | store | jump => simp [memWrite]
  | call p _ _ hn =>
    rw [hn] at hr
    exact (keepsRegs_linkReturn _ r hr).trans (afterReads_readReg i s r)
  | halt hi =>
    obtain rfl := hi
    exact keepsRegs_linkReturn s r hr

/-- A result overwrites another value of its own register and carries one of any other register through. -/
theorem writeResult_writeReg (dr r : Reg) (v w : Word) (s : State) :
    writeResult dr w (s.writeReg r v) = if r ∈ [dr] then writeResult dr w s else (writeResult dr w s).writeReg r v := by
  by_cases h : r = dr
  · simp [h, writeResult, State.writeReg_writeReg]
  · rw [if_neg (mt List.mem_singleton.1 h), writeResult, State.writeReg_comm s h]
    rfl

/-- The link overwrites another value of R7 and carries one of any other register through. -/
theorem linkReturn_writeReg (r : Reg) (v : Word) (s : State) :
    linkReturn (s.writeReg r v) = if r ∈ [.r7] then linkReturn s else (linkReturn s).writeReg r v := by
  by_cases h : r = .r7
  · simp [h, linkReturn, State.writeReg_writeReg]
  · rw [if_neg (mt List.mem_singleton.1 h), linkReturn, State.writeReg_comm s h]
    rfl

/-- An instruction does the same whatever a register holds that it does not read, but for that register itself, which it
overwrites or carries through. -/
theorem exec_writeReg {i : Instr} {s t : State} {r : Reg} (v : Word) (hr : r ∉ regReads i) (h : exec i s = .next t) :
    exec i (s.writeReg r v) = .next (if r ∈ regWrites i then t else t.writeReg r v) := by
  have keep : ∀ a ∈ regReads i, (s.writeReg r v).readReg a = s.readReg a :=
    fun a ha => State.readReg_writeReg_ne s (ne_of_mem_of_not_mem ha hr) v
  cases i with
  | addReg | addImm | andReg | andImm | not | lea | ld | ldr | ldi =>
    simp only [exec_addReg, exec_addImm, exec_andReg, exec_andImm, exec_not, exec_lea, exec_ld, exec_ldr, exec_ldi] at h ⊢
    cases h
    simp only [regReads, List.mem_cons, List.not_mem_nil, or_false, forall_eq_or_imp, forall_eq] at keep
    simp only [keep, pcRel9_writeReg, baseRel6, memRead_writeReg, writeResult_writeReg]
    rfl
  | st | str | sti =>
    simp only [exec_st, exec_str, exec_sti] at h ⊢
    cases h
    simp only [regReads, List.mem_cons, List.not_mem_nil, or_false, forall_eq_or_imp, forall_eq] at keep
    simp only [keep, pcRel9_writeReg, baseRel6, memRead_writeReg]
    rfl
  | br nzp off =>
    rw [exec_br] at h ⊢
    cases h
    rw [regWrites, if_neg List.not_mem_nil, apply_ite (State.writeReg r v)]
    rfl
  | jmp base =>
    rw [exec_jmp] at h ⊢
    cases h
    rw [keep base List.mem_cons_self]
    rfl
  | jsr off =>
    rw [exec_jsr] at h ⊢
    cases h
    rw [linkReturn_writeReg, apply_ite (State.setPC _)]
    rfl
  | jsrr base =>
    rw [exec_jsrr] at h ⊢
    cases h
    rw [linkReturn_readReg, linkReturn_readReg, keep base List.mem_cons_self, linkReturn_writeReg, apply_ite (State.setPC _)]
    rfl
  | trap vector =>
    by_cases hv : vector = s.cfg.haltVector
    · subst hv
      rw [exec_trap_halt] at h
      cases h
      rw [show s.cfg = (s.writeReg r v).cfg from rfl, exec_trap_halt, linkReturn_writeReg, apply_ite (State.setRun _)]
      rfl
    · rw [exec_trap_of_ne hv] at h
      cases h
      rw [exec_trap_of_ne (s := s.writeReg r v) hv, memRead_writeReg, linkReturn_writeReg, apply_ite (State.setPC _)]
      rfl
  | rti | reserved =>
    cases h
    rfl

/-- Settles O5: the write list frames every ending, and an unread register passes through every instruction. -/
theorem registersReadAndWrittenAsTabled : Obligations.RegistersReadAndWrittenAsTabled :=
  ⟨fun _ _ _ => keepsRegs_exec, fun _ _ _ _ v h hr => exec_writeReg v hr h⟩

end Sys2Proof.Machine
end

section
/-! PROOFS. The keyboard and the bus (spec/20_memory.md R52 to R67, spec/10_state.md R33 to R37): what a poll does, how many there
are, which cells change, and what a load and a fetch see of a store. -/

namespace Sys2Proof.Machine

/-- Settles O16: the two cases of a bus read's effect. -/
theorem busReadPollsOnlyAtTheStatusAddress : Obligations.BusReadPollsOnlyAtTheStatusAddress := by
  refine fun s a => ⟨fun h => ?_, ?_⟩
  · rw [memRead, readEffect_of_ne s h]
  · rintro rfl
    rw [memRead, readEffect_status]

theorem memRead_of_ne {a : Addr} {s : State} (h : a ≠ s.cfg.kbsrAddr) : memRead a s = (s.cell a, s) :=
  (busReadPollsOnlyAtTheStatusAddress s a).1 h

/-! ### The poll -/

/-- With no character the poll clears the status cell. -/
theorem pollKeyboard_of_nil {s : State} (h : s.kbq ++ s.kbInput.next.1 = []) :
    pollKeyboard s = (kbArrive s).setCell s.cfg.kbsrAddr 0x0000#16 := by
  obtain ⟨-, hp⟩ | ⟨c, rest, hc, -⟩ := pollKeyboard_cases s
  · exact hp
  · simp [h] at hc

/-- With a character the poll sets the status cell and moves the oldest character to the data cell. -/
theorem pollKeyboard_of_cons {s : State} {c : Byte} {rest : List Byte} (h : s.kbq ++ s.kbInput.next.1 = c :: rest) :
    pollKeyboard s =
      (((kbArrive s).setKbq rest).setCell s.cfg.kbsrAddr 0x8000#16).setCell s.cfg.kbdrAddr (zext c) := by
  obtain ⟨hn, -⟩ | ⟨c', rest', hc, hp⟩ := pollKeyboard_cases s
  · simp [h] at hn
  · rw [kbArrive_kbq, h] at hc
    cases hc
    exact hp

/-- Settles O17: with the keyboard cells apart, the data cell's write does not touch the status cell. -/
theorem pollTakesOneCharacterOrClearsTheStatus : Obligations.PollTakesOneCharacterOrClearsTheStatus := by
  intro s hwf
  have apart : s.cfg.kbsrAddr ≠ s.cfg.kbdrAddr := by simpa [Config.wf] using hwf
  refine ⟨fun h => ?_, fun c rest h => ?_, pollKeyboard_kbInput s, fun r _ => ?_, pollKeyboard_pc s, pollKeyboard_cond s,
    pollKeyboard_run s, pollKeyboard_cfg s⟩
  · rw [pollKeyboard_of_nil h]
    exact ⟨State.cell_setCell_same _ _ _, keepsCells_memWrite (kbArrive s) _ _, h⟩
  · rw [pollKeyboard_of_cons h]
    refine ⟨?_, ?_, fun a ha => ?_, rfl⟩
    · rw [State.cell_setCell_ne _ apart, State.cell_setCell_same]
    · rw [State.cell_setCell_same, zext_toNat c (by decide)]
    · simp only [List.mem_cons, List.not_mem_nil, or_false, not_or] at ha
      rw [State.cell_setCell_ne _ ha.2, State.cell_setCell_ne _ ha.1]
      rfl
  · rw [State.readReg, pollKeyboard_regs, State.readReg]

/-! ### No-ops, and the fetch from the status address -/

/-- The instructions that do nothing: BR with no selector bit, RTI, RESERVED. -/
def IsNoOp (i : Instr) : Prop := (∃ off, i = .br 0b000#3 off) ∨ i = .rti ∨ i = .reserved

theorem exec_of_isNoOp {i : Instr} (h : IsNoOp i) (s : State) : exec i s = .next s := by
  obtain ⟨off, rfl⟩ | rfl | rfl := h
  · simp [exec_br, branchTaken]
  · exact exec_rti s
  · exact exec_reserved s

theorem loadOf_of_isNoOp {i : Instr} (h : IsNoOp i) (s : State) : loadOf i s = none := by
  obtain ⟨off, rfl⟩ | rfl | rfl := h <;> rfl

theorem extract_eq_ofNat_div (w : Word) (lo n : Nat) : w.extractLsb' lo n = BitVec.ofNat n (w.toNat / 2 ^ lo) := by
  rw [BitVec.extractLsb', Nat.shiftRight_eq_div_pow]

/-- The words of R93 decode to no-ops. -/
theorem decode_isNoOp {w : Word}
    (h : w.toNat < 0x0200 ∨ (0x8000 ≤ w.toNat ∧ w.toNat < 0x9000) ∨ (0xD000 ≤ w.toNat ∧ w.toNat < 0xE000)) :
    IsNoOp (decode w) := by
  obtain h | h | h := h
  · refine .inl ⟨w.extractLsb' 0 9, ?_⟩
    rw [decode_br (by rw [extract_eq_ofNat_div, show w.toNat / 2 ^ 12 = 0 by omega]),
      extract_eq_ofNat_div w 9, show w.toNat / 2 ^ 9 = 0 by omega]
  · exact .inr (.inl (decode_rti (by rw [extract_eq_ofNat_div, show w.toNat / 2 ^ 12 = 8 by omega])))
  · exact .inr (.inr (decode_reserved (by rw [extract_eq_ofNat_div, show w.toNat / 2 ^ 12 = 13 by omega])))

/-- Settles O31: such a word decodes to a no-op. -/
theorem noOpWordsDoNothing : Obligations.NoOpWordsDoNothing :=
  fun _ s h => exec_of_isNoOp (decode_isNoOp h) s

/-- After a poll the status cell holds a no-op's word: 0x0000 or 0x8000, or a character where the two cells are one. -/
theorem decode_polled_status_isNoOp (s : State) : IsNoOp (decode ((pollKeyboard s).cell s.cfg.kbsrAddr)) := by
  obtain ⟨-, h⟩ | ⟨c, rest, -, h⟩ := pollKeyboard_cases s <;> rw [h, State.cell_setCell]
  · rw [if_pos rfl]
    exact decode_isNoOp (by decide)
  · split
    · have := zext_toNat c (by decide)
      have := c.isLt
      exact decode_isNoOp (by omega)
    · rw [State.cell_setCell_same]
      exact decode_isNoOp (by decide)

theorem decode_fetch_isNoOp {s : State} (h : s.pc = s.cfg.kbsrAddr) : IsNoOp (decode (fetch s).1) := by
  rw [fetch_status_word s h]
  exact decode_polled_status_isNoOp s

/-- Settles O18: the fetch polls and yields a no-op. -/
theorem fetchFromStatusAddressPollsAndDoesNothingElse : Obligations.FetchFromStatusAddressPollsAndDoesNothingElse := by
  intro s _ hrun hpc
  rw [step_of_running hrun, exec_of_isNoOp (decode_fetch_isNoOp hpc), fetch_eq]
  rw [show readEffect s.pc s = pollKeyboard s from hpc ▸ readEffect_status s]

/-! ### The keyboard sees the bus reads and nothing else of an instruction -/

theorem afterReads_of_nil {i : Instr} {s : State} (h : busReads i s = []) : afterReads i s = s := by
  rw [afterReads, h, List.foldl_nil]

theorem keepsKeyboard_exec_afterReads {i : Instr} {s t : State} (h : exec i s = .next t) :
    KeepsKeyboard (afterReads i s) t := by
  cases exec_ending h with
  | result | store | call => exact ⟨rfl, rfl⟩
  | jump _ _ _ hr | halt _ _ _ hr =>
    rw [afterReads_of_nil hr]
    exact ⟨rfl, rfl⟩

/-- With free input each read of the status address advances the counter, and no other read does. -/
theorem foldl_readEffect_kbInput_of_free (as : List Addr) {s : State} {n : Nat} (h : s.kbInput = .free n) :
    (as.foldl (fun u a => readEffect a u) s).kbInput = .free (n + as.count s.cfg.kbsrAddr) := by
  induction as generalizing s n with
  | nil => exact h
  | cons a as ih =>
    rw [List.foldl_cons, List.count_cons]
    obtain ⟨ha, hr⟩ | ⟨ha, hr⟩ := readEffect_cases s a <;> rw [hr]
    · simp [ih h, ha]
    · have hp : (pollKeyboard s).kbInput = .free (n + 1) := by rw [pollKeyboard_kbInput, h]; rfl
      simp [ih hp, ha, Nat.add_assoc, Nat.add_comm 1]

theorem exec_kbInput_of_free {i : Instr} {s t : State} {n : Nat} (hs : s.kbInput = .free n) (h : exec i s = .next t) :
    t.kbInput = .free (n + (busReads i s).count s.cfg.kbsrAddr) :=
  (keepsKeyboard_exec_afterReads h).2.trans (foldl_readEffect_kbInput_of_free _ hs)

theorem keepsKeyboard_exec {i : Instr} {s t : State} (hr : s.cfg.kbsrAddr ∉ busReads i s) (h : exec i s = .next t) :
    KeepsKeyboard s t := by
  have hk := keepsKeyboard_exec_afterReads h
  rwa [afterReads_of_not_mem i s hr] at hk

/-- Settles O19: the fetch is one bus read, the body makes those of R57's table. -/
theorem pollsAreTheBusReadsOfTheStatusAddress : Obligations.PollsAreTheBusReadsOfTheStatusAddress := by
  refine ⟨fun i s t n => exec_kbInput_of_free, fun i s t => keepsKeyboard_exec, fun s t n hs h => ?_⟩
  obtain ⟨-, h⟩ := step_eq_next.1 h
  have hf : (fetch s).2.kbInput = .free (n + [s.pc].count s.cfg.kbsrAddr) := foldl_readEffect_kbInput_of_free [s.pc] hs
  rw [exec_kbInput_of_free hf h, fetch_cfg, Nat.add_assoc, ← List.count_append]
  rfl

/-! ### Arrival order -/

/-- From `s` to `t` at most `n` characters were taken, and they were the first of all that was pending or still to come. -/
def TakesInOrder (n : Nat) (s t : State) : Prop :=
  ∀ future, s.kbInput = .script future → ∃ taken later, t.kbInput = .script later ∧
    s.kbq ++ future.flatten = taken ++ (t.kbq ++ later.flatten) ∧ taken.length ≤ n

theorem takesInOrder_of_keepsKeyboard {s t : State} (h : KeepsKeyboard s t) : TakesInOrder 0 s t := fun future hs =>
  ⟨[], future, h.2.trans hs, by rw [h.1, List.nil_append], Nat.le_refl 0⟩

theorem TakesInOrder.trans {m n : Nat} {s t u : State} (h : TakesInOrder m s t) (h' : TakesInOrder n t u) :
    TakesInOrder (m + n) s u := by
  intro future hs
  obtain ⟨taken, later, ht, hq, hl⟩ := h future hs
  obtain ⟨taken', later', hu, hq', hl'⟩ := h' later ht
  refine ⟨taken ++ taken', later', hu, ?_, ?_⟩
  · rw [hq, hq', List.append_assoc]
  · rw [List.length_append]
    omega

/-- What a poll appends is the first entry of the script, or nothing at its end. -/
theorem flatten_next (l : List (List Byte)) :
    ∃ later, (KbInput.script l).next.2 = .script later ∧ l.flatten = (KbInput.script l).next.1 ++ later.flatten := by
  cases l with
  | nil => exact ⟨[], rfl, rfl⟩
  | cons now later => exact ⟨later, rfl, List.flatten_cons⟩

theorem takesInOrder_pollKeyboard (s : State) : TakesInOrder 1 s (pollKeyboard s) := by
  intro future hs
  obtain ⟨later, hl, hf⟩ := flatten_next future
  rw [pollKeyboard_kbInput, hs, hl, hf, ← List.append_assoc, ← hs, ← kbArrive_kbq]
  obtain ⟨hq, h⟩ | ⟨c, rest, hq, h⟩ := pollKeyboard_cases s
  · exact ⟨[], later, rfl, by rw [h, State.setCell_kbq, List.nil_append], Nat.zero_le 1⟩
  · exact ⟨[c], later, rfl, by rw [h, hq]; rfl, Nat.le_refl 1⟩

theorem takesInOrder_foldl_readEffect (as : List Addr) (s : State) :
    TakesInOrder (as.count s.cfg.kbsrAddr) s (as.foldl (fun u a => readEffect a u) s) := by
  induction as generalizing s with
  | nil => exact takesInOrder_of_keepsKeyboard ⟨rfl, rfl⟩
  | cons a as ih =>
    rw [List.foldl_cons, List.count_cons]
    have := ih (readEffect a s)
    obtain ⟨ha, hr⟩ | ⟨ha, hr⟩ := readEffect_cases s a <;> rw [hr] at this ⊢
    · simpa [ha] using this
    · simpa [ha, Nat.add_comm] using (takesInOrder_pollKeyboard s).trans this

/-- Settles O21: the fetch's read, then the body's, each take the first character if they poll. -/
theorem charactersAreTakenInArrivalOrder : Obligations.CharactersAreTakenInArrivalOrder := by
  intro s t future hs h
  obtain ⟨-, h⟩ := step_eq_next.1 h
  have hf : TakesInOrder ([s.pc].count s.cfg.kbsrAddr) s (fetch s).2 := takesInOrder_foldl_readEffect [s.pc] s
  have hb := takesInOrder_foldl_readEffect (busReads (decode (fetch s).1) (fetch s).2) (fetch s).2
  rw [fetch_cfg] at hb
  have := (hf.trans hb).trans (takesInOrder_of_keepsKeyboard (keepsKeyboard_exec_afterReads h)) future hs
  rwa [Nat.add_zero, ← List.count_append] at this

/-! ### A step without a status read does not see the keyboard -/

/-- The state with another queue and another future. -/
def State.withKeyboard (q : List Byte) (k : KbInput) (s : State) : State := (s.setKbq q).setKbInput k

/-- A read of any other address than the status cell's passes queue and future through. -/
theorem memRead_withKeyboard {a : Addr} {s : State} (q : List Byte) (k : KbInput) (h : a ≠ s.cfg.kbsrAddr) :
    memRead a (s.withKeyboard q k) = ((memRead a s).1, (memRead a s).2.withKeyboard q k) := by
  rw [memRead_of_ne h, memRead_of_ne (s := s.withKeyboard q k) h]
  rfl

theorem pcRel9_withKeyboard (off : BitVec 9) (q : List Byte) (k : KbInput) (s : State) :
    pcRel9 off (s.withKeyboard q k) = pcRel9 off s := rfl

theorem writeResult_withKeyboard (dr : Reg) (v : Word) (q : List Byte) (k : KbInput) (s : State) :
    writeResult dr v (s.withKeyboard q k) = (writeResult dr v s).withKeyboard q k := rfl

/-- An instruction that does not read the status cell carries queue and future through. -/
theorem exec_withKeyboard {i : Instr} {s t : State} (q : List Byte) (k : KbInput) (hr : s.cfg.kbsrAddr ∉ busReads i s)
    (h : exec i s = .next t) : exec i (s.withKeyboard q k) = .next (t.withKeyboard q k) := by
  have ne : ∀ a ∈ busReads i s, a ≠ s.cfg.kbsrAddr := fun a ha => ne_of_mem_of_not_mem ha hr
  cases i with
  | ld dr off =>
    rw [exec_ld] at h ⊢
    cases h
    rw [pcRel9_withKeyboard,
      memRead_withKeyboard q k (ne _ List.mem_cons_self), writeResult_withKeyboard]
  | ldr dr base off =>
    rw [exec_ldr] at h ⊢
    cases h
    rw [show baseRel6 base off (s.withKeyboard q k) = baseRel6 base off s from rfl,
      memRead_withKeyboard q k (ne _ List.mem_cons_self), writeResult_withKeyboard]
  | ldi dr off =>
    rw [exec_ldi] at h ⊢
    cases h
    have hp : (memRead (pcRel9 off s) s).1 ≠ (memRead (pcRel9 off s) s).2.cfg.kbsrAddr := by
      rw [memRead_snd, readEffect_cfg]
      exact ne _ (List.mem_cons_of_mem _ List.mem_cons_self)
    rw [pcRel9_withKeyboard,
      memRead_withKeyboard q k (ne _ List.mem_cons_self), memRead_withKeyboard q k hp,
      writeResult_withKeyboard]
  | sti sr off =>
    rw [exec_sti] at h ⊢
    cases h
    rw [pcRel9_withKeyboard, memRead_withKeyboard q k (ne _ List.mem_cons_self)]
    rfl
  | br nzp off =>
    rw [exec_br] at h ⊢
    cases h
    rw [apply_ite (State.withKeyboard q k)]
    rfl
  | trap vector =>
    by_cases hv : vector = s.cfg.haltVector
    · subst hv
      rw [exec_trap_halt] at h
      cases h
      exact exec_trap_halt (s.withKeyboard q k)
    · rw [exec_trap_of_ne hv] at h
      cases h
      have hslot : trapSlot vector s ≠ s.cfg.kbsrAddr := ne _ (by rw [busReads, if_neg hv]; exact List.mem_cons_self)
      rw [exec_trap_of_ne (s := s.withKeyboard q k) hv,
        show trapSlot vector (s.withKeyboard q k) = trapSlot vector s from rfl, memRead_withKeyboard q k hslot]
      rfl
  | _ =>
    cases h
    rfl

/-- Settles O22: fetch and body read plain cells. -/
theorem keyboardUnobservedWithoutStatusRead : Obligations.KeyboardUnobservedWithoutStatusRead := by
  intro s t q k hpc hr h
  obtain ⟨hrun, h⟩ := step_eq_next.1 h
  rw [← fetch_cfg s] at hr
  have hf := exec_withKeyboard q k hr h
  rw [fetch_of_ne s hpc] at hf
  rw [step_of_running (s := (s.setKbq q).setKbInput k) hrun, fetch_of_ne ((s.setKbq q).setKbInput k) hpc]
  exact hf

/-! ### Cells -/

/-- After an instruction the cell its bus write addresses holds the word, every other cell what the bus reads leave. -/
theorem exec_cell {i : Instr} {s t : State} (h : exec i s = .next t) :
    (∀ a v, busWrite i s = some (a, v) → t.cell a = v) ∧
    (∀ a, (∀ v, busWrite i s ≠ some (a, v)) → t.cell a = (afterReads i s).cell a) := by
  cases exec_ending h with
  | result _ _ _ hw | call _ _ hw =>
    rw [hw]
    exact ⟨nofun, fun _ _ => rfl⟩
  | jump _ _ hw hr | halt _ _ hw hr =>
    rw [hw, afterReads_of_nil hr]
    exact ⟨nofun, fun _ _ => rfl⟩
  | store b w _ hw =>
    rw [hw]
    refine ⟨?_, fun a ha => State.cell_setCell_ne _ (fun e => ha w (by rw [e])) w⟩
    rintro _ _ ⟨⟩
    exact memWrite_cell_same b w _

/-- Settles O20: the bus reads leave every cell alone if none polls, and all but the keyboard's two if one does. -/
theorem cellsChangeOnlyByStoresAndPolls : Obligations.CellsChangeOnlyByStoresAndPolls := by
  intro i s t h
  obtain ⟨written, kept⟩ := exec_cell h
  refine ⟨written, fun a ha hr => ?_, fun a ha h1 h2 => ?_⟩
  · rw [kept a ha, afterReads_of_not_mem i s hr]
  · exact (kept a ha).trans (keepsCells_afterReads i s a (by simp [h1, h2]))

/-! ### After a store: the next load and the next fetch -/

/-- A load none of whose bus reads polls takes the data cell into its destination, and does nothing else. -/
theorem exec_of_loadOf {i : Instr} {s : State} {dr : Reg} {a : Addr} (hl : loadOf i s = some (dr, a))
    (hr : s.cfg.kbsrAddr ∉ busReads i s) : exec i s = .next (writeResult dr (s.cell a) s) := by
  have ne : ∀ b ∈ busReads i s, b ≠ s.cfg.kbsrAddr := fun b hb => ne_of_mem_of_not_mem hb hr
  cases i with
  | ld dr off =>
    cases hl
    rw [exec_ld, memRead_of_ne (ne _ List.mem_cons_self)]
  | ldr dr base off =>
    cases hl
    rw [exec_ldr, memRead_of_ne (ne _ List.mem_cons_self)]
  | ldi dr off =>
    cases hl
    have hp := memRead_of_ne (ne (pcRel9 off s) List.mem_cons_self)
    have hd : (memRead (pcRel9 off s) s).1 ≠ s.cfg.kbsrAddr := ne _ (List.mem_cons_of_mem _ List.mem_cons_self)
    rw [readPointer, exec_ldi]
    rw [hp] at hd ⊢
    rw [memRead_of_ne hd]
  | _ => cases hl

/-- Settles O23: the load's fetch does not poll, since it would yield a no-op, and so leaves the stored word in its cell. -/
theorem storeThenLoadGivesTheStoredWord : Obligations.StoreThenLoadGivesTheStoredWord := by
  intro s t u a v dr hs ht hw hl hr
  have hcell : t.cell a = v := (exec_cell (step_eq_next.1 hs).2).1 a v hw
  have hpc : t.pc ≠ t.cfg.kbsrAddr := by
    intro e
    simp [loadOf_of_isNoOp (decode_fetch_isNoOp e)] at hl
  have hu := (step_eq_next.1 ht).2
  rw [exec_of_loadOf hl (by rwa [fetch_cfg])] at hu
  cases hu
  rw [writeResult_readReg, if_pos rfl, fetch_of_ne t hpc, State.setPC_cell, hcell]
  exact ⟨rfl, (flagsDescribe_iff v _).2 rfl⟩

/-- A store leaves RUN alone. -/
theorem exec_run_of_busWrite {i : Instr} {s t : State} {w : Addr × Word} (hw : busWrite i s = some w)
    (h : exec i s = .next t) : t.run = s.run := by
  obtain ⟨rfl, -⟩ | ⟨-, hr⟩ := exec_run h
  · cases hw
  · exact hr

/-- Settles O24: the machine still runs, and the fetch reads the stored word. -/
theorem storeIsSeenByTheNextFetch : Obligations.StoreIsSeenByTheNextFetch := by
  intro s t v h hpc hw
  obtain ⟨hrun, h⟩ := step_eq_next.1 h
  have ht : t.run = .running := by rw [exec_run_of_busWrite hw h, fetch_run, hrun]
  rw [step_of_running ht, fetch_of_ne t hpc, (exec_cell h).1 t.pc v hw]

end Sys2Proof.Machine
end

section
/-! PROOFS. The canonical form of memory is one list for each content of the cells (log entry 7). -/

namespace Sys2Proof.Machine

theorem Memory.lookup_head (b : Nat) (v : Word) (m : Memory) : Memory.lookup ((b, v) :: m) b = v := by
  rw [Memory.lookup, if_pos rfl]

/-- A canonical list's first key is told from every list that starts later: there the cell is unlisted. -/
theorem Memory.lookup_head_ne {lo b : Nat} {v : Word} {m m' : Memory} (h : Memory.risingFrom lo ((b, v) :: m) = true)
    (h' : Memory.risingFrom (b + 1) m' = true) : Memory.lookup ((b, v) :: m) b ≠ m'.lookup b := by
  obtain ⟨-, -, hv, -⟩ := Memory.risingFrom_cons.1 h
  rwa [Memory.lookup_head, Memory.lookup_below h' (Nat.lt_succ_self b)]

/-- Of two canonical lists that read alike, neither starts before the other. -/
theorem Memory.head_key_le {lo b b' : Nat} {v v' : Word} {m m' : Memory} (h : Memory.risingFrom lo ((b, v) :: m) = true)
    (h' : Memory.risingFrom lo ((b', v') :: m') = true)
    (hc : ∀ k < 65536, Memory.lookup ((b, v) :: m) k = Memory.lookup ((b', v') :: m') k) : b' ≤ b := by
  by_contra hlt
  obtain ⟨-, hb, -⟩ := Memory.risingFrom_cons.1 h
  obtain ⟨-, hrest'⟩ := Memory.risingFrom_cons.1 h'
  exact Memory.lookup_head_ne h (Memory.risingFrom_cons.2 ⟨Nat.lt_of_not_le hlt, hrest'⟩) (hc b hb)

/-- Canonical lists that read alike at every cell are equal, key by key from the lowest. -/
theorem Memory.eq_of_lookup_eq {lo : Nat} {m m' : Memory} (h : Memory.risingFrom lo m = true)
    (h' : Memory.risingFrom lo m' = true) (hc : ∀ k < 65536, m.lookup k = m'.lookup k) : m = m' := by
  induction m generalizing lo m' with
  | nil =>
    cases m' with
    | nil => rfl
    | cons c' m' => exact absurd (hc c'.1 (Memory.risingFrom_cons.1 h').2.1).symm (Memory.lookup_head_ne h' rfl)
  | cons c m ih =>
    obtain ⟨b, v⟩ := c
    obtain ⟨-, hb, -, hm⟩ := Memory.risingFrom_cons.1 h
    cases m' with
    | nil => exact absurd (hc b hb) (Memory.lookup_head_ne h rfl)
    | cons c' m' =>
      obtain ⟨b', v'⟩ := c'
      obtain rfl : b = b' := Nat.le_antisymm (Memory.head_key_le h' h fun k hk => (hc k hk).symm)
        (Memory.head_key_le h h' hc)
      obtain ⟨-, -, -, hm'⟩ := Memory.risingFrom_cons.1 h'
      have hv : v = v' := by simpa only [Memory.lookup_head] using hc b hb
      rw [hv, ih hm hm' fun k hk => ?_]
      by_cases hkb : k ≤ b
      · rw [Memory.lookup_below hm (Nat.lt_succ_of_le hkb), Memory.lookup_below hm' (Nat.lt_succ_of_le hkb)]
      · simpa only [Memory.lookup, show b ≠ k by omega, if_false] using hc k hk

/-- Settles O27: every cell has its key below 65,536, so reads at all addresses compare the lists at every key. -/
theorem canonicalMemoriesWithEqualCellsAreEqual : Obligations.CanonicalMemoriesWithEqualCellsAreEqual := by
  intro m m' h h' hc
  refine Memory.eq_of_lookup_eq h h' fun k hk => ?_
  have := hc (BitVec.ofNat 16 k)
  rwa [Memory.read, Memory.read, BitVec.toNat_ofNat, Nat.mod_eq_of_lt hk] at this

end Sys2Proof.Machine
end

section
/-! PROOFS. The operate and data-movement forms (spec/40_operate.md, spec/41_data_movement.md): each has its words from `decode_…`,
its next state from `exec_…`, and its frame from the rule of the operation it ends in. -/

namespace Sys2Proof.Machine

/-! ### Frames of a result and of a load -/

theorem writeResult_readReg_same (dr : Reg) (v : Word) (s : State) : (writeResult dr v s).readReg dr = v := by
  rw [writeResult_readReg, if_pos rfl]

/-- After a result: its flag, and everything kept but the destination and COND. -/
theorem writeResult_frame (dr : Reg) (v : Word) (s : State) :
    FlagsDescribe ((writeResult dr v s).readReg dr) (writeResult dr v s).cond ∧ KeepsRegs [dr] s (writeResult dr v s) ∧
    (writeResult dr v s).pc = s.pc ∧ (writeResult dr v s).run = s.run ∧ SameMemoryAndKeyboard s (writeResult dr v s) ∧
    (writeResult dr v s).cfg = s.cfg := by
  refine ⟨?_, keepsRegs_writeResult s dr v, rfl, rfl, sameMemoryAndKeyboard_writeResult s dr v, rfl⟩
  rw [writeResult_readReg_same]
  exact (flagsDescribe_iff v _).2 rfl

/-- After the load of a word through the bus: the word, its flag, memory and keyboard as the read leaves them, and everything
else kept. -/
theorem load_frame {dr : Reg} {a : Addr} {s t : State} (ht : t = writeResult dr (memRead a s).1 (memRead a s).2) :
    t.readReg dr = (memRead a s).1 ∧ FlagsDescribe (t.readReg dr) t.cond ∧ KeepsRegs [dr] s t ∧ t.pc = s.pc ∧
    t.run = s.run ∧ t.cfg = s.cfg ∧ SameMemoryAndKeyboard (memRead a s).2 t ∧
    KeepsCells [s.cfg.kbsrAddr, s.cfg.kbdrAddr] s t ∧
    (a ≠ s.cfg.kbsrAddr → t.readReg dr = s.cell a ∧ SameMemoryAndKeyboard s t) := by
  subst ht
  obtain ⟨hflags, hregs, hpc, hrun, hmem, hcfg⟩ := writeResult_frame dr (memRead a s).1 (memRead a s).2
  refine ⟨writeResult_readReg_same dr _ _, hflags, fun r hr => (hregs r hr).trans (readEffect_readReg s a r),
    hpc.trans (readEffect_pc s a), hrun.trans (readEffect_run s a), hcfg.trans (readEffect_cfg s a), hmem,
    keepsCells_readEffect s a, fun ha => ?_⟩
  rw [memRead_of_ne ha]
  exact ⟨writeResult_readReg_same dr _ s, sameMemoryAndKeyboard_writeResult s dr _⟩

/-! ### ADD, AND, NOT -/

/-- Settles O33: the result is one 16-bit sum. -/
theorem addRegisterForm : Obligations.AddRegisterForm := by
  refine ⟨fun ir dr a b => decode_addReg, fun s dr a b => ⟨_, exec_addReg dr a b s, ?_, writeResult_frame dr _ s⟩⟩
  rw [writeResult_readReg_same, BitVec.toNat_add]

/-- Settles O34: the sum with a sign-extended field is the exact sum, wrapped. -/
theorem addImmediateForm : Obligations.AddImmediateForm := by
  refine ⟨fun ir dr a => decode_addImm, fun s dr a imm => ⟨_, exec_addImm dr a imm s, ?_, writeResult_frame dr _ s⟩⟩
  rw [writeResult_readReg_same, add_sext_toNat _ imm (by decide)]

/-- Settles O35: a bit of the result is the `and` of the sources' bits. -/
theorem andRegisterForm : Obligations.AndRegisterForm := by
  refine ⟨fun ir dr a b => decode_andReg, fun s dr a b => ⟨_, exec_andReg dr a b s, fun k => ?_, writeResult_frame dr _ s⟩⟩
  rw [writeResult_readReg_same, BitVec.getLsbD_and]

/-- Bit `k` of a sign-extended immediate, below 16: its own bit, or from bit 4 up its sign bit. -/
theorem getLsbD_sext_imm5 (imm : BitVec 5) (k : Nat) :
    (sext imm).getLsbD k = (decide (k < 16) && imm.getLsbD (min k 4)) := by
  rw [getLsbD_sext, BitVec.msb_eq_getLsbD_last]
  by_cases h : k < 5
  · rw [if_pos h, Nat.min_eq_left (by omega)]
  · rw [if_neg h, Nat.min_eq_right (by omega)]

/-- Settles O36: above bit 15 both sides are clear, since a register has no such bit. -/
theorem andImmediateForm : Obligations.AndImmediateForm := by
  refine ⟨fun ir dr a => decode_andImm, fun s dr a imm => ⟨_, exec_andImm dr a imm s, fun k => ?_, writeResult_frame dr _ s⟩⟩
  rw [writeResult_readReg_same, BitVec.getLsbD_and, getLsbD_sext_imm5]
  by_cases hk : k < 16
  · rw [decide_eq_true hk, Bool.true_and]
  · rw [BitVec.getLsbD_of_ge _ k (Nat.le_of_not_lt hk), Bool.false_and, Bool.false_and]

/-- Settles O37: the complement of `x` is 65,535 minus `x`. -/
theorem notComplements : Obligations.NotComplements := by
  refine ⟨fun ir dr a => decode_not, fun s dr a => ⟨_, exec_not dr a s, ?_, writeResult_frame dr _ s⟩⟩
  rw [writeResult_readReg_same, BitVec.toNat_not]

/-! ### Loads -/

/-- Settles O38: the frame of a load from the PC-relative address. -/
theorem loadPcRelative : Obligations.LoadPcRelative :=
  ⟨fun _ _ => decode_ld, fun s dr off => ⟨_, exec_ld dr off s, add_sext_toNat _ off (by decide), load_frame rfl⟩⟩

/-- Settles O40: the frame of a load from the base-relative address. -/
theorem loadBaseOffset : Obligations.LoadBaseOffset :=
  ⟨fun _ _ _ => decode_ldr, fun s dr base off =>
    ⟨_, exec_ldr dr base off s, add_sext_toNat _ off (by decide), load_frame rfl⟩⟩

/-- Settles O39: the data's load, from the state that the pointer's read leaves. -/
theorem loadIndirect : Obligations.LoadIndirect := by
  refine ⟨fun ir dr => decode_ldi, fun s dr off => ⟨_, exec_ldi dr off s, ?_⟩⟩
  obtain ⟨hdr, hflags, hregs, hpc, hrun, hcfg, hmem, hcells, -⟩ :=
    load_frame (dr := dr) (a := (memRead (pcRel9 off s) s).1) (s := (memRead (pcRel9 off s) s).2) rfl
  rw [memRead_snd, readEffect_cfg] at hcells
  refine ⟨hdr, hflags, fun r hr => (hregs r hr).trans (readEffect_readReg s _ r), hpc.trans (readEffect_pc s _),
    hrun.trans (readEffect_run s _), hcfg.trans (readEffect_cfg s _), hmem,
    fun b hb => (hcells b hb).trans (keepsCells_readEffect s _ b hb), fun hp hd => ?_⟩
  rw [memRead_of_ne hp, memRead_of_ne hd]
  exact ⟨writeResult_readReg_same dr _ s, sameMemoryAndKeyboard_writeResult s dr _⟩

/-- Settles O41: the frame of a result, which here is the address. -/
theorem loadEffectiveAddress : Obligations.LoadEffectiveAddress := by
  refine ⟨fun ir dr => decode_lea, fun s dr off => ⟨_, exec_lea dr off s, ?_, writeResult_frame dr _ s⟩⟩
  rw [writeResult_readReg_same, pcRel9, add_sext_toNat _ off (by decide)]

/-! ### Stores -/

/-- Settles O42: the frame of a bus write at the PC-relative address. -/
theorem storePcRelative : Obligations.StorePcRelative :=
  ⟨fun _ _ => decode_st, fun s sr off => ⟨_, exec_st sr off s, add_sext_toNat _ off (by decide), memWrite_cell_same _ _ s,
    keepsCells_memWrite s _ _, keepsRegs_memWrite _ _ s, rfl, rfl, rfl, keepsKeyboard_memWrite _ _ s, rfl⟩⟩

/-- Settles O44: the frame of a bus write at the base-relative address. -/
theorem storeBaseOffset : Obligations.StoreBaseOffset :=
  ⟨fun _ _ _ => decode_str, fun s sr base off => ⟨_, exec_str sr base off s, add_sext_toNat _ off (by decide),
    memWrite_cell_same _ _ s, keepsCells_memWrite s _ _, keepsRegs_memWrite _ _ s, rfl, rfl, rfl,
    keepsKeyboard_memWrite _ _ s, rfl⟩⟩

/-- Settles O43: the write's frame, from the state that the pointer's read leaves. -/
theorem storeIndirect : Obligations.StoreIndirect := by
  refine ⟨fun ir sr => decode_sti, fun s sr off => ⟨_, exec_sti sr off s, memWrite_cell_same _ _ _,
    keepsCells_memWrite _ _ _, keepsKeyboard_memWrite _ _ _, fun b hb => ?_, fun r _ => readEffect_readReg s _ r,
    readEffect_cond s _, readEffect_pc s _, readEffect_run s _, readEffect_cfg s _, fun hp => ?_⟩⟩
  · rw [List.mem_cons, not_or] at hb
    exact (keepsCells_memWrite _ _ _ b (mt List.mem_singleton.1 hb.1)).trans (keepsCells_readEffect s _ b hb.2)
  · rw [memRead_of_ne hp]
    exact ⟨memWrite_cell_same _ _ s, keepsCells_memWrite s _ _, keepsKeyboard_memWrite _ _ s⟩

end Sys2Proof.Machine
end

section
/-! PROOFS. The control forms (spec/42_control.md). -/

namespace Sys2Proof.Machine

/-! ### BR and JMP -/

/-- Setting PC changes neither memory nor keyboard. -/
theorem sameMemoryAndKeyboard_setPC (p : Addr) (s : State) : SameMemoryAndKeyboard s (s.setPC p) :=
  ⟨fun _ _ => rfl, rfl, rfl⟩

/-- BR's test, selector bit by selector bit. -/
theorem branchTaken_eq (nzp : BitVec 3) (s : State) : branchTaken nzp s =
    (nzp.getLsbD 2 && s.cond.getLsbD 2 || nzp.getLsbD 1 && s.cond.getLsbD 1 || nzp.getLsbD 0 && s.cond.getLsbD 0) := by
  have all : ∀ n c : BitVec 3, ((n &&& c) != 0#3) =
      (n.getLsbD 2 && c.getLsbD 2 || n.getLsbD 1 && c.getLsbD 1 || n.getLsbD 0 && c.getLsbD 0) := by decide
  exact all nzp s.cond

/-- Settles O45: the test is `branchTaken`, and the two arms set PC or nothing. -/
theorem branchOnSelectedFlag : Obligations.BranchOnSelectedFlag := by
  refine ⟨fun ir => decode_br, fun s nzp off => ⟨_, exec_br nzp off s, ?_⟩⟩
  rw [← branchTaken_eq]
  cases branchTaken nzp s with
  | true =>
    exact ⟨fun _ => add_sext_toNat s.pc off (by decide), nofun, fun _ _ => rfl, rfl, rfl,
      sameMemoryAndKeyboard_setPC _ s, rfl⟩
  | false => exact ⟨nofun, fun _ => rfl, fun _ _ => rfl, rfl, rfl, sameMemoryAndKeyboard_setPC s.pc s, rfl⟩

/-- Settles O46: the jump sets PC and nothing else. -/
theorem jumpThroughRegister : Obligations.JumpThroughRegister :=
  ⟨fun _ _ => decode_jmp, fun s base =>
    ⟨_, exec_jmp base s, rfl, fun _ _ => rfl, rfl, rfl, sameMemoryAndKeyboard_setPC _ s, rfl⟩⟩

/-! ### Calls -/

theorem linkReturn_readReg_r7 (s : State) : (linkReturn s).readReg .r7 = s.pc := by
  rw [linkReturn_readReg, if_pos rfl]

theorem sameMemoryAndKeyboard_linkReturn (s : State) : SameMemoryAndKeyboard s (linkReturn s) :=
  ⟨fun _ _ => rfl, rfl, rfl⟩

/-- Settles O47: the link, then the jump. -/
theorem jumpToSubroutinePcRelative : Obligations.JumpToSubroutinePcRelative :=
  ⟨fun _ => decode_jsr, fun s off => ⟨_, exec_jsr off s, linkReturn_readReg_r7 s, add_sext_toNat s.pc off (by decide),
    keepsRegs_linkReturn s, rfl, rfl, sameMemoryAndKeyboard_linkReturn s, rfl⟩⟩

/-- Settles O48: the base is read after the link, which for R7 it therefore gives. -/
theorem jumpToSubroutineThroughRegister : Obligations.JumpToSubroutineThroughRegister := by
  refine ⟨fun ir base => decode_jsrr, fun s base => ⟨_, exec_jsrr base s, linkReturn_readReg_r7 s, fun h => ?_, ?_,
    keepsRegs_linkReturn s, rfl, rfl, sameMemoryAndKeyboard_linkReturn s, rfl⟩⟩
  · rw [State.setPC_pc, linkReturn_readReg, if_neg h]
  · rintro rfl
    exact linkReturn_readReg_r7 s

/-- Settles O49: the halt vector and every other, each by its own equation. -/
theorem trapLinksAndHaltsOrJumpsThroughTheTable : Obligations.TrapLinksAndHaltsOrJumpsThroughTheTable := by
  refine ⟨fun ir => decode_trap, fun s vector => ?_⟩
  by_cases hv : vector = s.cfg.haltVector
  · subst hv
    exact ⟨_, exec_trap_halt s, linkReturn_readReg_r7 s, keepsRegs_linkReturn s, rfl, rfl,
      fun _ => ⟨rfl, rfl, sameMemoryAndKeyboard_linkReturn s⟩, fun h => absurd rfl h⟩
  · refine ⟨_, exec_trap_of_ne hv, (linkReturn_readReg_r7 _).trans (readEffect_pc s _),
      fun r hr => (keepsRegs_linkReturn _ r hr).trans (readEffect_readReg s _ r), readEffect_cond s _, readEffect_cfg s _,
      fun h => absurd h hv, fun _ => ⟨readEffect_run s _, ?_, rfl, sameMemoryAndKeyboard_linkReturn _,
        keepsCells_readEffect s _, fun ha => ?_⟩⟩
    · rw [trapSlot, BitVec.toNat_add, zext_toNat vector (by decide)]
    · rw [memRead_of_ne ha]
      exact ⟨rfl, sameMemoryAndKeyboard_linkReturn s⟩

/-- Every call leaves the address after it in R7. -/
theorem readReg_r7_of_call {i : Instr} {s t : State}
    (hi : (∃ off, i = .jsr off) ∨ (∃ base, i = .jsrr base) ∨ (∃ v, i = .trap v)) (h : exec i s = .next t) :
    t.readReg .r7 = s.pc := by
  obtain ⟨off, rfl⟩ | ⟨base, rfl⟩ | ⟨v, rfl⟩ := hi
  · obtain ⟨_, ht, hl, -⟩ := jumpToSubroutinePcRelative.2 s off
    cases h.symm.trans ht
    exact hl
  · obtain ⟨_, ht, hl, -⟩ := jumpToSubroutineThroughRegister.2 s base
    cases h.symm.trans ht
    exact hl
  · obtain ⟨_, ht, hl, -⟩ := trapLinksAndHaltsOrJumpsThroughTheTable.2 s v
    cases h.symm.trans ht
    exact hl

/-- Settles O52: R7 holds the address after the call, and JMP R7 goes there. -/
theorem jumpThroughLinkReturnsAfterTheCall : Obligations.JumpThroughLinkReturnsAfterTheCall := by
  intro i s t u hi h hu
  rw [exec_jmp, hu, readReg_r7_of_call hi h]

/-! ### The halt-trap's step, and the no-ops -/

/-- Settles O13: the fetch reads a plain cell, which holds TRAP with the halt vector. -/
theorem haltTrapHaltsInOneStep : Obligations.HaltTrapHaltsInOneStep := by
  intro s hrun hpc hop hv
  have hstep : step s = .next ((linkReturn (s.setPC (s.pc + 1#16))).setRun .halted) := by
    rw [step_of_running hrun, fetch_of_ne s hpc, decode_trap hop, hv]
    exact exec_trap_halt (s.setPC (s.pc + 1#16))
  exact ⟨_, hstep, rfl, linkReturn_readReg_r7 _, rfl, keepsRegs_linkReturn (s.setPC (s.pc + 1#16)), rfl, rfl, ⟨rfl, rfl⟩, rfl⟩

/-- Settles O50: opcode 8 alone makes the word RTI. -/
theorem rtiIsNoOp : Obligations.RtiIsNoOp := ⟨fun _ => decode_rti, exec_rti⟩

/-- Settles O51: opcode 13 alone makes the word RESERVED. -/
theorem reservedIsNoOp : Obligations.ReservedIsNoOp := ⟨fun _ => decode_reserved, exec_reserved⟩

/-- Settles O32: each word by the rule of its form. -/
theorem wordsOfTheSpecDecodeAsListed : Obligations.WordsOfTheSpecDecodeAsListed :=
  ⟨decode_br rfl, decode_addImm rfl rfl rfl rfl, decode_addReg rfl rfl rfl rfl rfl, decode_andReg rfl rfl rfl rfl rfl,
    decode_jsr rfl rfl, decode_jsrr rfl rfl rfl, decode_str rfl rfl rfl, decode_trap rfl⟩

end Sys2Proof.Machine
end
